-- ==== Sys2Proof/Word.lean ====
section
/-! DEFINITION. The widths of BIHE (00_scope R10, 30_encoding R90): a byte, a 64-bit value and a 72-bit command beat. -/

namespace Sys2Proof

/-- A firmware, payload, text or map byte (00_scope R10), and an opcode (30_encoding R90). -/
abbrev Byte := BitVec 8

/-- A 64-bit value: every register, the DATA field of a beat, a checksum word (00_scope R10). -/
abbrev Word := BitVec 64

/-- One command beat, OPC in bits 71:64 and DATA in bits 63:0 (30_encoding R90). -/
abbrev Beat := BitVec 72

end Sys2Proof
end

