-- ==== Sys2Proof/Config.lean ====
section
/-! DEFINITION. The implementation parameters the spec leaves open (00_scope R11; 93 U4, U5): the two buffer
capacities and the case of the hex letters. A value of `Params` is legal by construction, and the block's own value
is opaque, so no proof can rest on one choice (log entry 4). With them stand the free contents of the buffers after a reset
(10_state R45; 93 U8; log entry 5). -/

namespace Sys2Proof

/-- The case of the hex letters a to f in the text stream (00_scope R11, 43_emit R194). -/
inductive HexCase where
  | lower
  | upper
deriving DecidableEq, Repr, Inhabited

/-- The parameters of 00_scope R11. `FW_CAP` is a multiple of 8 with `8 <= FW_CAP <= 2^32 - 8`: it is held as the
number of 8-byte words beyond the first, 0 to 2^29 - 2. `PL_CAP` is any value from 0 to 2^32 - 1. -/
structure Params where
  fwWords : Fin 536870911
  plCap : BitVec 32
  hexCase : HexCase
deriving DecidableEq, Repr, Inhabited

/-- `FW_CAP` in bytes (00_scope R11). -/
def Params.fwCap (p : Params) : Nat := 8 * p.fwWords.val + 8

/-- The block's own parameters: some legal value, and nothing says which (00_scope R11; 93 U4, U5; log entry 4). -/
opaque Config.params : Params

/-- The byte FW_BUF holds at an index after the given reset: any value, and nothing says which (10_state R45; 93 U8; log entry 5). -/
opaque Config.fwFill (reset index : Nat) : Byte

/-- The byte PL_BUF holds at an index after the given reset, likewise, and independent of FW_BUF's (log entry 5). -/
opaque Config.plFill (reset index : Nat) : Byte

end Sys2Proof
end

