-- ==== Sys2Proof/Syntax.lean ====
section
/-! DEFINITION. The command set of 30_encoding R93, one constructor per row of the opcode table. Each constructor holds
the whole DATA field of its beat: the must-be-zero bits of forms B8 and Z are checked when the command is executed
(30_encoding R92, R95), after the phase check, so a beat whose must-be-zero bits are not zero is still this command. -/

namespace Sys2Proof

/-- The ten commands (30_encoding R93). -/
inductive Instr where
  /-- NOP, form X (44_system R240). -/
  | nop (data : Word)
  /-- SET_TARGET, form D64 (40_config R121). -/
  | setTarget (v : Word)
  /-- SET_BOOT, form D64 (40_config R122). -/
  | setBoot (v : Word)
  /-- SET_FLASH, form D64 (40_config R123). -/
  | setFlash (v : Word)
  /-- SET_PLADDR, form D64 (40_config R124). -/
  | setPladdr (v : Word)
  /-- FW_BYTE, form B8 (41_absorb R141). -/
  | fwByte (data : Word)
  /-- PL_BYTE, form B8 (41_absorb R142). -/
  | plByte (data : Word)
  /-- SEAL, form Z (42_seal R160). -/
  | sealFw (data : Word)
  /-- EMIT, form Z (43_emit R190). -/
  | emit (data : Word)
  /-- RESET, form X (44_system R241). -/
  | reset (data : Word)
deriving DecidableEq, Repr

end Sys2Proof
end

