-- ==== Sys2Proof/WellFormed.lean ====
section
/-! DEFINITION. Which commands are well formed: the ones whose must-be-zero bits are zero (30_encoding R92), which are
the ones an assembler can produce or a HOST may send without RESERVED_OPERAND (30_encoding R97, R99). -/

namespace Sys2Proof

/-- A `B8` operand is at most 0xFF, a `Z` form has DATA 0, a `D64` or `X` form takes every DATA (30_encoding R92). -/
def Instr.wellFormed : Instr → Bool
  | .nop _ => true
  | .setTarget _ => true
  | .setBoot _ => true
  | .setFlash _ => true
  | .setPladdr _ => true
  | .fwByte d => decide (d.toNat ≤ 0xFF)
  | .plByte d => decide (d.toNat ≤ 0xFF)
  | .sealFw d => decide (d.toNat = 0)
  | .emit d => decide (d.toNat = 0)
  | .reset _ => true

end Sys2Proof
end

