-- ==== Sys2Proof/Decode.lean ====
section
/-! DEFINITION. Decoding a 72-bit beat by its OPC field alone (30_encoding R90, R91, R93), with the reserved opcodes of
R94 refused by name, and the encoder of R99. The two are written separately from the spec's table: the decoder reads
numbers into constructors, the encoder constructors into numbers. -/

namespace Sys2Proof

/-- Why a beat has no command: its opcode is one of the 246 reserved ones (30_encoding R94). The machine answers it
with ILLEGAL_OPCODE, or discards it in phase ERROR; it is never a stop. -/
inductive DecodeError where
  | reservedOpcode (opc : Byte)
deriving DecidableEq, Repr

/-- `OPC`, bits 71:64 of a beat (30_encoding R90). -/
def beatOpc (w : Beat) : Byte := w.extractLsb' 64 8

/-- `DATA`, bits 63:0 of a beat (30_encoding R90). -/
def beatData (w : Beat) : Word := w.extractLsb' 0 64

/-- The opcode map of 30_encoding R93, read from left to right; every other opcode is reserved (R94). -/
def decodeFields (opc : Byte) (data : Word) : Except DecodeError Instr :=
  match opc.toNat with
  | 0x00 => .ok (.nop data)
  | 0x01 => .ok (.setTarget data)
  | 0x02 => .ok (.setBoot data)
  | 0x03 => .ok (.setFlash data)
  | 0x04 => .ok (.setPladdr data)
  | 0x10 => .ok (.fwByte data)
  | 0x11 => .ok (.plByte data)
  | 0x20 => .ok (.sealFw data)
  | 0x21 => .ok (.emit data)
  | 0xFF => .ok (.reset data)
  | _ => .error (.reservedOpcode opc)

/-- A decoder needs only OPC to select the command (30_encoding R91). -/
def decode (w : Beat) : Except DecodeError Instr := decodeFields (beatOpc w) (beatData w)

/-- The opcode of each command (30_encoding R93). -/
def Instr.opcode : Instr → Byte
  | .nop _ => 0x00
  | .setTarget _ => 0x01
  | .setBoot _ => 0x02
  | .setFlash _ => 0x03
  | .setPladdr _ => 0x04
  | .fwByte _ => 0x10
  | .plByte _ => 0x11
  | .sealFw _ => 0x20
  | .emit _ => 0x21
  | .reset _ => 0xFF

/-- The DATA field of each command (30_encoding R92, R99). -/
def Instr.data : Instr → Word
  | .nop d => d
  | .setTarget v => v
  | .setBoot v => v
  | .setFlash v => v
  | .setPladdr v => v
  | .fwByte d => d
  | .plByte d => d
  | .sealFw d => d
  | .emit d => d
  | .reset d => d

/-- The beat of a command, `OPC ++ DATA` (30_encoding R90, R99). -/
def encode (i : Instr) : Beat := i.opcode ++ i.data

/-- The command the decoder reads from a beat numbered as the opcode table numbers it: the table's `match` and `mask`
are 72-bit numbers with DATA in the low 64 bits, the whole beat being one word, so bit 0 is bit 0 of DATA (log entry 11). Bits at
and above `nbits` are 0; a value that does not fit 72 bits is no beat. -/
def decodeTableWord (nbits w : Nat) : Option Instr :=
  if w % 2 ^ nbits < 2 ^ 72 then
    match decode (BitVec.ofNat 72 (w % 2 ^ nbits)) with
    | .ok i => some i
    | .error _ => none
  else none

end Sys2Proof
end

