-- ==== Sys2Proof/Machine/State.lean ====
section
/-! DEFINITION. The state of the block (10_state R20), the HOST's side of its ports as plain data (log entries 1 and 3),
the reasons a step can stop, and the state after reset (10_state R45, 70_reset R300). -/

namespace Sys2Proof.Machine

/-- PHASE (10_state R22). The values 5, 6 and 7 are never held and have no constructor (93 U13; log entry 8). -/
inductive Phase where
  | load
  | sealed
  | emitting
  | done
  | error
deriving DecidableEq, Repr

/-- The error causes of 60_exceptions R261; their codes are `errorCode` of Machine/Ops.lean. -/
inductive ErrCause where
  | illegalOpcode
  | sequence
  | reservedOperand
  | fwOverflow
  | plOverflow
  | fwEmpty
  | addrRange
deriving DecidableEq, Repr

/-- Whose turn a step is: what the HOST lets happen next on the block's ports (00_scope R16; log entry 1). The spec
fixes no order among them (20_memory R84, 10_state R50), so the list of turns is data, and a claim holds for every list. -/
inductive Turn where
  /-- `cmd_valid = 1` with the oldest beat of `cmdIn` (10_state R46). -/
  | engine
  /-- `txt_ready = 1` (10_state R48, 43_emit R191). -/
  | txt
  /-- `map_ready = 1` (10_state R49, 43_emit R191). -/
  | map
  /-- A read of the read port at `idx` (10_state R47, 44_system R242). -/
  | read (idx : BitVec 4)
  /-- `rst` asserted (10_state R44); with `beatLost`, it coincides with the oldest beat of `cmdIn`, which is lost
  (60_exceptions R267; log entry 9; for a beat that EMITTING only holds, log entry 18). -/
  | rst (beatLost : Bool)
deriving DecidableEq, Repr

/-- One transfer on the TXT channel (10_state R48). -/
structure TxtXfer where
  octet : Byte
  last : Bool
deriving DecidableEq, Repr

/-- One transfer on the MAP channel: byte `data` belongs at map address `addr` (10_state R49). -/
structure MapXfer where
  addr : Word
  data : Byte
  last : Bool
deriving DecidableEq, Repr

/-- One answer of the read port (10_state R47). -/
structure RdXfer where
  idx : BitVec 4
  data : Word
deriving DecidableEq, Repr

/-- The architectural state of 10_state R20, in its order, and then the model's own fields: the HOST's side of the
ports, and which reset the buffers' unspecified contents come from. A buffer lists the bytes written since that reset as (index,
byte) pairs with rising indices; at every other index it holds a free value (log entry 5). -/
structure State where
  /-- PHASE, 10_state R22. -/
  phase : Phase
  /-- TARGET, 10_state R24. -/
  target : Word
  /-- BOOT, 10_state R25. -/
  boot : Word
  /-- FLASH, 10_state R26. -/
  flash : Word
  /-- PLADDR, 10_state R27. -/
  pladdr : Word
  /-- PL_PRESENT, 10_state R28. -/
  plPresent : Bool
  /-- FWCNT, 10_state R29. -/
  fwCnt : Word
  /-- PLCNT, 10_state R30. -/
  plCnt : Word
  /-- SIZE, 10_state R31. -/
  size : Word
  /-- ACC, 10_state R32. -/
  acc : Word
  /-- ERR_CODE, 10_state R33. -/
  errCode : Byte
  /-- ERR_OPC, 10_state R33. -/
  errOpc : Byte
  /-- TXT_CUR, 10_state R34. -/
  txtCur : Word
  /-- MAP_CUR, 10_state R34. -/
  mapCur : Word
  /-- TXT_DONE, 10_state R34. -/
  txtDone : Bool
  /-- MAP_DONE, 10_state R34. -/
  mapDone : Bool
  /-- FW_BUF, 20_memory R61. -/
  fwBuf : List Host.Cell
  /-- PL_BUF, 20_memory R62. -/
  plBuf : List Host.Cell
  /-- The model's own: how many resets there have been, which selects the buffers' unspecified contents (log entry 5). -/
  resets : Nat
  /-- The model's own: the beats the HOST presents, oldest first (log entry 1). -/
  cmdIn : List Beat
  /-- The model's own: the turns to come, next first (log entry 1). -/
  sched : List Turn
  /-- The model's own: the TXT transfers the HOST has accepted, oldest first (log entry 3). -/
  txtOut : List TxtXfer
  /-- The model's own: the MAP transfers the HOST has accepted, oldest first (log entry 3). -/
  mapOut : List MapXfer
  /-- The model's own: the read-port answers the HOST has seen, oldest first (log entry 3). -/
  rdOut : List RdXfer
deriving DecidableEq, Repr

/-- The model's own stops. None is an error of the spec: those are next states in phase ERROR (60_exceptions R264). Each
arises only in states that no run from reset reaches, and stopping there is safe. -/
inductive Fault where
  /-- FW_BYTE, PL_BYTE, SEAL, the TXT emitter or the MAP emitter would use a buffer index at or past the capacity, which does not
  exist (20_memory R60): only where FWCNT, PLCNT or SIZE is already past it. Safe (log entry 6). -/
  | bufferIndex
  /-- The TXT or the MAP emitter has a step with its cursor past its sequence (10_state R21, 43_emit R191). Safe (log entry 7). -/
  | cursorPastEnd
  /-- The MAP emitter would send an address past `2^64 - 1`, which 20_memory R79 excludes. Safe (log entry 7). -/
  | mapAddress
deriving DecidableEq, Repr

/-- Stops for want of a meaning. No arm of exec answers one. -/
inductive Refusal where
  /-- A command whose meaning is not written; raised by no arm of exec in this model. Safe. -/
  | notModelled (mnemonic : String)
deriving DecidableEq, Repr

/-- What a command, a turn and a step answer. -/
abbrev Result := Host.Outcome State Fault Refusal

/-- The machine right after reset (10_state R45, 70_reset R300): the values the spec states, the buffers with no byte
listed, so that every byte holds a free value (log entry 5), and nothing offered by the HOST (log entry 1). -/
def State.reset : State where
  phase := .load
  target := 0
  boot := 0
  flash := 0
  pladdr := 0
  plPresent := false
  fwCnt := 0
  plCnt := 0
  size := 0
  acc := 0xFFFFFFFFFFFFFFFF
  errCode := 0
  errOpc := 0
  txtCur := 0
  mapCur := 0
  txtDone := false
  mapDone := false
  fwBuf := []
  plBuf := []
  resets := 0
  cmdIn := []
  sched := []
  txtOut := []
  mapOut := []
  rdOut := []

end Sys2Proof.Machine
end

