-- ==== Sys2Proof/Machine/Ops.lean ====
section
/-! DEFINITION. The shared operations: reading and writing a buffer (20_memory R61, R62), raising an error (60_exceptions
R264) and the return from it, the reset (70_reset R300, 60_exceptions R268). -/

namespace Sys2Proof.Machine

/-- The byte written at index `k` since the last reset, if there is one. -/
def bufFind : List Host.Cell → Nat → Option Byte
  | [], _ => none
  | (a, b) :: rest, k => if a = k then some b else bufFind rest k

/-- Byte `k` of a buffer: the byte written there, and where nothing has been written since the last reset the free value that `fill`
gives (10_state R45; log entry 5). This is the one place that says what an unlisted index reads as. -/
def bufRead (fill : Nat → Byte) (m : List Host.Cell) (k : Nat) : Byte := (bufFind m k).getD (fill k)

/-- Write byte `k` of a buffer, keeping the indices strictly rising with one entry each. -/
def bufWrite : List Host.Cell → Nat → Byte → List Host.Cell
  | [], k, v => [(k, v)]
  | (a, b) :: rest, k, v =>
    if k < a then (k, v) :: (a, b) :: rest
    else if k = a then (k, v) :: rest
    else (a, b) :: bufWrite rest k v

/-- The indices of a buffer rise strictly from at least `lo`, and each is below the capacity. What an unlisted index reads as is a
free value that nothing can compare with, so a listed byte stays listed whatever it is: this is the whole form (log entry 5). -/
def bufWfFrom (cap : Nat) : Nat → List Host.Cell → Bool
  | _, [] => true
  | lo, (a, _) :: rest => decide (lo ≤ a) && decide (a < cap) && bufWfFrom cap (a + 1) rest

/-- The canonical form of a buffer of `cap` bytes (20_memory R60: indices `0..cap-1`). -/
def bufWf (cap : Nat) (m : List Host.Cell) : Bool := bufWfFrom cap 0 m

/-- Write byte `k` of a buffer of `cap` bytes; there is no index `k` at or past the capacity (20_memory R60; log entry 6). -/
def bufStore (cap : Nat) (m : List Host.Cell) (k : Nat) (v : Byte) : Option (List Host.Cell) :=
  if k < cap then some (bufWrite m k v) else none

/-- The `n` bytes of a buffer from index `k` on. -/
def bufBytes (fill : Nat → Byte) (m : List Host.Cell) : Nat → Nat → List Byte
  | _, 0 => []
  | k, n + 1 => bufRead fill m k :: bufBytes fill m (k + 1) n

/-- `FW_BUF[k]` (20_memory R61). -/
def fwByteAt (s : State) (k : Nat) : Byte := bufRead (Config.fwFill s.resets) s.fwBuf k

/-- `PL_BUF[k]` (20_memory R62). -/
def plByteAt (s : State) (k : Nat) : Byte := bufRead (Config.plFill s.resets) s.plBuf k

/-- The error codes of 60_exceptions R261. -/
def errorCode : ErrCause → Byte
  | .illegalOpcode => 0x01
  | .sequence => 0x02
  | .reservedOperand => 0x03
  | .fwOverflow => 0x04
  | .plOverflow => 0x05
  | .fwEmpty => 0x06
  | .addrRange => 0x07

/-- Taking an error, `raise E(opc)` of 60_exceptions R264: the code and the opcode are recorded if no error is recorded
yet, the phase becomes ERROR, and nothing else changes (R263). -/
def raise (e : ErrCause) (opc : Byte) (s : State) : State :=
  { s with
    errCode := if s.errCode = 0 then errorCode e else s.errCode
    errOpc := if s.errCode = 0 then opc else s.errOpc
    phase := .error }

/-- The reset of 70_reset R300, the only way out of phase ERROR (60_exceptions R268): every piece of the block's state takes its
value of 10_state R45, the buffers new unspecified contents (log entry 5). The HOST's own record and its coming turns are not the
block's state and stay (log entry 3). -/
def resetBlock (s : State) : State :=
  { State.reset with
    resets := s.resets + 1
    cmdIn := s.cmdIn
    sched := s.sched
    txtOut := s.txtOut
    mapOut := s.mapOut
    rdOut := s.rdOut }

end Sys2Proof.Machine
end

