-- ==== Sys2Proof/Machine/Operands.lean ====
section
/-! DEFINITION. The operand forms (30_encoding R92), the phase permissions (R93, R96) and the checks every accepted beat
passes before its own rule runs (R95). -/

namespace Sys2Proof.Machine

/-- The four operand forms of 30_encoding R92. -/
inductive Form where
  | d64
  | b8
  | z
  | x
deriving DecidableEq, Repr

/-- The form column of 30_encoding R93. -/
def formOf : Instr → Form
  | .nop _ => .x
  | .setTarget _ => .d64
  | .setBoot _ => .d64
  | .setFlash _ => .d64
  | .setPladdr _ => .d64
  | .fwByte _ => .b8
  | .plByte _ => .b8
  | .sealFw _ => .z
  | .emit _ => .z
  | .reset _ => .x

/-- The must-be-zero bits of a form (30_encoding R92). -/
def mustBeZero : Form → Word
  | .d64 => 0x0000000000000000
  | .b8 => 0xFFFFFFFFFFFFFF00
  | .z => 0xFFFFFFFFFFFFFFFF
  | .x => 0x0000000000000000

/-- No must-be-zero bit of DATA is 1 (30_encoding R92). -/
def operandOk (f : Form) (data : Word) : Bool := decide (data &&& mustBeZero f = 0)

/-- `b = DATA[7:0]` (30_encoding R92, 20_memory R71). -/
def byteOperand (data : Word) : Byte := data.extractLsb' 0 8

/-- The column "allowed in phase" of 30_encoding R93. -/
def allowedIn : Instr → Phase → Bool
  | .nop _, ph => decide (ph ≠ .emitting)
  | .setTarget _, ph => decide (ph = .load)
  | .setBoot _, ph => decide (ph = .load)
  | .setFlash _, ph => decide (ph = .load)
  | .setPladdr _, ph => decide (ph = .load)
  | .fwByte _, ph => decide (ph = .load)
  | .plByte _, ph => decide (ph = .load)
  | .sealFw _, ph => decide (ph = .load)
  | .emit _, ph => decide (ph = .sealed) || decide (ph = .done)
  | .reset _, ph => decide (ph ≠ .emitting)

/-- PL_BYTE needs PL_PRESENT = 1 besides its phase (30_encoding R93, R95). -/
def presenceOk : Instr → State → Bool
  | .plByte _, s => s.plPresent
  | _, _ => true

/-- RESET, the one command with an effect in phase ERROR (30_encoding R95, 60_exceptions R265). -/
def isReset : Instr → Bool
  | .reset _ => true
  | _ => false

/-- The execution of an accepted beat (30_encoding R95), `body` being what the command's own rule answers. In phase EMITTING no
beat is accepted (10_state R46, 30_encoding R96 "H"): the state does not change (log entry 10). In phase ERROR every beat but
RESET is discarded. Otherwise SEQUENCE, then RESERVED_OPERAND, then the command's own rule (60_exceptions R266). -/
def perform (i : Instr) (s : State) (body : Result) : Result :=
  match s.phase with
  | .emitting => .next s
  | .error => if isReset i then body else .next s
  | _ =>
    if (allowedIn i s.phase && presenceOk i s) = false then .next (raise .sequence i.opcode s)
    else if operandOk (formOf i) i.data = false then .next (raise .reservedOperand i.opcode s)
    else body

end Sys2Proof.Machine
end

