-- ==== Sys2Proof/Machine/Absorb.lean ====
section
/-! DEFINITION. The absorption commands FW_BYTE and PL_BYTE (41_absorb R140 to R142), each over parameters of 00_scope R11. -/

namespace Sys2Proof.Machine

/-- The rule of FW_BYTE after the checks of R95 (41_absorb R141). -/
def absorbFw (p : Params) (b : Byte) (s : State) : Result :=
  if s.fwCnt.toNat = p.fwCap then .next (raise .fwOverflow 0x10 s)
  else
    match bufStore p.fwCap s.fwBuf s.fwCnt.toNat b with
    | none => .fault .bufferIndex
    | some m => .next { s with fwBuf := m, fwCnt := s.fwCnt + 1 }

/-- The rule of PL_BYTE after the checks of R95 (41_absorb R142). -/
def absorbPl (p : Params) (b : Byte) (s : State) : Result :=
  if s.plCnt.toNat = p.plCap.toNat then .next (raise .plOverflow 0x11 s)
  else
    match bufStore p.plCap.toNat s.plBuf s.plCnt.toNat b with
    | none => .fault .bufferIndex
    | some m => .next { s with plBuf := m, plCnt := s.plCnt + 1 }

/-- FW_BYTE, absorb one firmware byte (41_absorb R141). -/
def execFwByte (data : Word) (s : State) : Result :=
  perform (.fwByte data) s (absorbFw Config.params (byteOperand data) s)

/-- PL_BYTE, absorb one payload byte (41_absorb R142). -/
def execPlByte (data : Word) (s : State) : Result :=
  perform (.plByte data) s (absorbPl Config.params (byteOperand data) s)

end Sys2Proof.Machine
end

