-- ==== Sys2Proof/Machine/Configure.lean ====
section
/-! DEFINITION. The configuration commands SET_TARGET, SET_BOOT, SET_FLASH and SET_PLADDR (40_config R120 to R124). -/

namespace Sys2Proof.Machine

/-- SET_TARGET: `R[TARGET] <- v` (40_config R121). -/
def execSetTarget (v : Word) (s : State) : Result :=
  perform (.setTarget v) s (.next { s with target := v })

/-- SET_BOOT: `R[BOOT] <- v` (40_config R122). -/
def execSetBoot (v : Word) (s : State) : Result :=
  perform (.setBoot v) s (.next { s with boot := v })

/-- SET_FLASH: `R[FLASH] <- v`; a value too large for the image is refused later by SEAL (40_config R123). -/
def execSetFlash (v : Word) (s : State) : Result :=
  perform (.setFlash v) s (.next { s with flash := v })

/-- SET_PLADDR: `R[PLADDR] <- v; R[PL_PRESENT] <- 1`; absorbed payload bytes stay (40_config R124). -/
def execSetPladdr (v : Word) (s : State) : Result :=
  perform (.setPladdr v) s (.next { s with pladdr := v, plPresent := true })

end Sys2Proof.Machine
end

