-- ==== Sys2Proof/Machine/Flags.lean ====
section
/-! DEFINITION. The status bits and levels of the block: STATUS (10_state R37), the handshake levels of the ports (10_state
R46, R48, R49) and `done` and `err` (R51). There are no condition codes or arithmetic flags (10_state R36). -/

namespace Sys2Proof.Machine

/-- The 3-bit value of PHASE (10_state R22). -/
def Phase.code : Phase → BitVec 3
  | .load => 0
  | .sealed => 1
  | .emitting => 2
  | .done => 3
  | .error => 4

/-- STATUS (10_state R37), from its most significant field down: reserved 63:24, ERR_OPC, ERR_CODE, reserved 7:6, MAP_DONE,
TXT_DONE, PL_PRESENT, PHASE. -/
def statusWord (s : State) : Word :=
  (0 : BitVec 40) ++ s.errOpc ++ s.errCode ++ (0 : BitVec 2) ++ BitVec.ofBool s.mapDone ++ BitVec.ofBool s.txtDone
    ++ BitVec.ofBool s.plPresent ++ s.phase.code

/-- `cmd_ready = 1` exactly when PHASE is not EMITTING (10_state R46). -/
def cmdReady (s : State) : Bool := decide (s.phase ≠ .emitting)

/-- `txt_valid` (10_state R48). -/
def txtValid (s : State) : Bool := decide (s.phase = .emitting) && !s.txtDone

/-- `map_valid` (10_state R49). -/
def mapValid (s : State) : Bool := decide (s.phase = .emitting) && !s.mapDone

/-- The level `done` (10_state R51). -/
def doneLevel (s : State) : Bool := decide (s.phase = .done)

/-- The level `err` (10_state R51). -/
def errLevel (s : State) : Bool := decide (s.phase = .error)

end Sys2Proof.Machine
end

