-- ==== Sys2Proof/Machine/Bytes.lean ====
section
/-! DEFINITION. Bytes of a 64-bit value and the words made of bytes (00_scope R12, R13, R14). -/

namespace Sys2Proof.Machine

/-- `byte_i(v) = v[8i+7:8i]`, byte 0 the least significant (00_scope R12). -/
def byteOf (v : Word) (i : Nat) : Byte := v.extractLsb' (8 * i) 8

/-- `be64(b0, ..., b7)`: the first byte is the most significant (00_scope R13). -/
def be64 (b0 b1 b2 b3 b4 b5 b6 b7 : Byte) : Word := b0 ++ b1 ++ b2 ++ b3 ++ b4 ++ b5 ++ b6 ++ b7

/-- `le64(b0, ..., b7)`: the first byte is the least significant (00_scope R13). -/
def le64 (b0 b1 b2 b3 b4 b5 b6 b7 : Byte) : Word := b7 ++ b6 ++ b5 ++ b4 ++ b3 ++ b2 ++ b1 ++ b0

/-- The source's named transform: `byte_0(w) ++ byte_1(w) ++ ... ++ byte_7(w)` (00_scope R14). -/
def reverseWordBytes (w : Word) : Word :=
  byteOf w 0 ++ byteOf w 1 ++ byteOf w 2 ++ byteOf w 3 ++ byteOf w 4 ++ byteOf w 5 ++ byteOf w 6 ++ byteOf w 7

end Sys2Proof.Machine
end

