-- ==== Sys2Proof/Machine/TextStream.lean ====
section
/-! DEFINITION. The text stream TxtSeq of the TXT emitter (43_emit R194 to R204), byte by byte. -/

namespace Sys2Proof.Machine

/-- The line terminator LF (43_emit R194, R195; log entry 13). -/
def lineFeed : Byte := 0x0A

/-- The character `@` (43_emit R194; log entry 13). -/
def atSign : Byte := 0x40

/-- The ASCII octet of a hex digit: 0x30 to 0x39, then 0x61 to 0x66 or 0x41 to 0x46 by HEX_CASE (43_emit R194; log entry 13). -/
def hexDigit (c : HexCase) (d : BitVec 4) : Byte :=
  if d.toNat < 10 then BitVec.ofNat 8 (0x30 + d.toNat)
  else
    match c with
    | .lower => BitVec.ofNat 8 (0x61 + (d.toNat - 10))
    | .upper => BitVec.ofNat 8 (0x41 + (d.toNat - 10))

/-- `hex2(b)`: two characters, high nibble first (00_scope R13). -/
def hex2 (c : HexCase) (b : Byte) : List Byte :=
  [hexDigit c (b.extractLsb' 4 4), hexDigit c (b.extractLsb' 0 4)]

/-- The nibbles of the low `4n` bits of `v`, most significant first. -/
def nibbles (v : Word) : Nat → List (BitVec 4)
  | 0 => []
  | n + 1 => v.extractLsb' (4 * n) 4 :: nibbles v n

/-- `hexmin(v)`: the shortest spelling, with no leading zero, `0` for zero (00_scope R13). -/
def hexmin (c : HexCase) (v : Word) : List Byte :=
  match (nibbles v 16).dropWhile (fun d => decide (d = 0)) with
  | [] => [hexDigit c 0]
  | ds => ds.map (hexDigit c)

/-- `hex8(v)`: `hexmin(v)` left-padded with `0` to at least 8 characters (00_scope R13). -/
def hex8 (c : HexCase) (v : Word) : List Byte :=
  List.replicate (8 - (hexmin c v).length) (hexDigit c 0) ++ hexmin c v

/-- `line(t)`: the characters and then LF (43_emit R195, R196). -/
def textLine (t : List Byte) : List Byte := t ++ [lineFeed]

/-- One byte line (43_emit R195). -/
def byteLine (c : HexCase) (b : Byte) : List Byte := textLine (hex2 c b)

/-- The byte lines of a body in forward order (43_emit R199, R200). -/
def byteLines (c : HexCase) (bs : List Byte) : List Byte := bs.flatMap (byteLine c)

/-- The 8 bytes of a header field in text order, byte 7 first (43_emit R198, 20_memory R64). -/
def textFieldBytes (v : Word) : List Byte := [7, 6, 5, 4, 3, 2, 1, 0].map (byteOf v)

/-- A header field: 8 byte lines and a blank separator line (43_emit R198). -/
def fieldLines (c : HexCase) (v : Word) : List Byte := byteLines c (textFieldBytes v) ++ textLine []

/-- The text of an image, given its firmware bytes and its payload, if one is present (43_emit R196). -/
def imageText (c : HexCase) (s : State) (firmware : List Byte) (payload : Option (List Byte)) : List Byte :=
  textLine (atSign :: hexmin c s.flash)
    ++ (fieldLines c s.target ++ fieldLines c s.boot ++ fieldLines c s.size ++ fieldLines c s.acc)
    ++ byteLines c firmware
    ++ (match payload with
        | none => []
        | some bs =>
          textLine [] ++ textLine [] ++ textLine [] ++ textLine [] ++ textLine []
            ++ textLine (atSign :: hex8 c s.pladdr) ++ byteLines c bs)

/-- `FW_BUF[0..SIZE-1]`, the padded firmware after SEAL (20_memory R61). -/
def firmwareBytes (s : State) : List Byte := bufBytes (Config.fwFill s.resets) s.fwBuf 0 s.size.toNat

/-- `PL_BUF[0..PLCNT-1]` (20_memory R62). -/
def payloadBytes (s : State) : List Byte := bufBytes (Config.plFill s.resets) s.plBuf 0 s.plCnt.toNat

/-- `TxtSeq` (43_emit R196). -/
def txtSeq (c : HexCase) (s : State) : List Byte :=
  imageText c s (firmwareBytes s) (if s.plPresent then some (payloadBytes s) else none)

end Sys2Proof.Machine
end

