-- ==== Sys2Proof/Machine/MapStream.lean ====
section
/-! DEFINITION. The map stream MapSeq of the MAP emitter (43_emit R210 to R216), and how a model of its consumer may read it
(20_memory R81; 93 U1, U2). -/

namespace Sys2Proof.Machine

/-- The 8 records of a header field at `base`, byte 0 first (43_emit R210, R212, 20_memory R65). -/
def fieldRecords (base : Nat) (v : Word) : List Host.Cell :=
  [0, 1, 2, 3, 4, 5, 6, 7].map (fun i => (base + i, byteOf v i))

/-- The records of a body in forward order from `base` (43_emit R213, R214). -/
def bodyRecords : Nat → List Byte → List Host.Cell
  | _, [] => []
  | base, b :: bs => (base, b) :: bodyRecords (base + 1) bs

/-- The records of the primary region: header, then firmware (43_emit R210, 20_memory R77). Addresses are exact (R79). -/
def primaryRecords (s : State) (firmware : List Byte) : List Host.Cell :=
  fieldRecords (s.flash.toNat + 8 * 0) s.target
    ++ fieldRecords (s.flash.toNat + 8 * 1) s.boot
    ++ fieldRecords (s.flash.toNat + 8 * 2) s.size
    ++ fieldRecords (s.flash.toNat + 8 * 3) s.acc
    ++ bodyRecords (s.flash.toNat + 32) firmware

/-- `MapSeq` (43_emit R210, R211). -/
def mapSeq (s : State) : List Host.Cell :=
  primaryRecords s (firmwareBytes s) ++ (if s.plPresent then bodyRecords s.pladdr.toNat (payloadBytes s) else [])

/-- The bytes a consumer's map may hold at address `a` after the records `rs`: none where no record writes it (93 U2), and any
one of them where several do (93 U1; log entry 12). -/
def mapCandidates (rs : List Host.Cell) (a : Nat) : List Byte :=
  (rs.filter (fun r => decide (r.1 = a))).map (fun r => r.2)

end Sys2Proof.Machine
end

