-- ==== Sys2Proof/Machine/Emit.lean ====
section
/-! DEFINITION. EMIT (43_emit R190) and the step of each emitter (43_emit R191, R192). -/

namespace Sys2Proof.Machine

/-- What EMIT does: both cursors and both done bits 0, and PHASE is EMITTING (43_emit R190). -/
def startEmission (s : State) : State :=
  { s with txtCur := 0, mapCur := 0, txtDone := false, mapDone := false, phase := .emitting }

/-- EMIT: start both emitters (43_emit R190). -/
def execEmit (data : Word) (s : State) : Result :=
  perform (.emit data) s (.next (startEmission s))

/-- The element at a cursor and whether it is the last of its sequence (43_emit R191). -/
def elementAt {α : Type} (q : List α) (cur : Word) : Option (α × Bool) :=
  match q[cur.toNat]? with
  | none => none
  | some e => some (e, decide (cur.toNat + 1 = q.length))

/-- Every buffer index the artifacts read exists (20_memory R60 to R62; log entry 6). -/
def imageInBuffers (p : Params) (s : State) : Bool :=
  decide (s.size.toNat ≤ p.fwCap) && (!s.plPresent || decide (s.plCnt.toNat ≤ p.plCap.toNat))

/-- The element the TXT emitter offers (10_state R48, 43_emit R191, R204). -/
def txtOffer (p : Params) (s : State) : Except Fault TxtXfer :=
  if imageInBuffers p s = false then .error .bufferIndex
  else
    match elementAt (txtSeq p.hexCase s) s.txtCur with
    | none => .error .cursorPastEnd
    | some (o, last) => .ok { octet := o, last := last }

/-- The record the MAP emitter offers (10_state R49, 43_emit R191, R216). -/
def mapOffer (p : Params) (s : State) : Except Fault MapXfer :=
  if imageInBuffers p s = false then .error .bufferIndex
  else
    match elementAt (mapSeq s) s.mapCur with
    | none => .error .cursorPastEnd
    | some (r, last) =>
      if r.1 < 2 ^ 64 then .ok { addr := BitVec.ofNat 64 r.1, data := r.2, last := last }
      else .error .mapAddress

/-- PHASE becomes DONE in the step in which the second done bit becomes 1 (43_emit R192). -/
def closeEmission (s : State) : State :=
  { s with phase := if s.txtDone && s.mapDone then .done else s.phase }

/-- The HOST accepts `x` on the TXT channel: the cursor advances, the done bit is set on the last octet (43_emit R191). -/
def sendTxt (x : TxtXfer) (s : State) : State :=
  closeEmission { s with txtCur := s.txtCur + 1, txtDone := s.txtDone || x.last, txtOut := s.txtOut ++ [x] }

/-- The HOST accepts `x` on the MAP channel: the cursor advances, the done bit is set on the last record (43_emit R191). -/
def sendMap (x : MapXfer) (s : State) : State :=
  closeEmission { s with mapCur := s.mapCur + 1, mapDone := s.mapDone || x.last, mapOut := s.mapOut ++ [x] }

/-- `txt_ready = 1`: the TXT emitter has a step exactly when `txt_valid = 1` (43_emit R191). -/
def txtTurn (p : Params) (s : State) : Result :=
  if txtValid s then
    match txtOffer p s with
    | .error f => .fault f
    | .ok x => .next (sendTxt x s)
  else .next s

/-- `map_ready = 1`: the MAP emitter has a step exactly when `map_valid = 1` (43_emit R191). -/
def mapTurn (p : Params) (s : State) : Result :=
  if mapValid s then
    match mapOffer p s with
    | .error f => .fault f
    | .ok x => .next (sendMap x s)
  else .next s

end Sys2Proof.Machine
end

