-- ==== Sys2Proof/Machine/Seal.lean ====
section
/-! DEFINITION. SEAL (42_seal R160 to R173): the checks, the padding, `payload_size` and the rolling-XOR checksum. -/

namespace Sys2Proof.Machine

/-- The checksum seed, all ones (00_scope R15, 42_seal R168). -/
def checksumSeed : Word := 0xFFFFFFFFFFFFFFFF

/-- `pad(n) = 8 * ceil(n / 8)`, the least multiple of 8 that is at least `n` (42_seal R162). -/
def padLength (n : Nat) : Nat := 8 * ((n + 7) / 8)

/-- `in_range` of 42_seal R164, with exact addition: neither region passes map address `2^64 - 1`. -/
def inRange (flash : Word) (size : Nat) (plPresent : Bool) (pladdr plCnt : Word) : Bool :=
  decide (flash.toNat + 32 + size - 1 ≤ 2 ^ 64 - 1)
    && (!plPresent || decide (plCnt = 0) || decide (pladdr.toNat + plCnt.toNat - 1 ≤ 2 ^ 64 - 1))

/-- Write 0x00 at the `n` indices from `k` on (42_seal R165). -/
def padZeros (m : List Host.Cell) : Nat → Nat → List Host.Cell
  | _, 0 => m
  | k, n + 1 => padZeros (bufWrite m k 0x00) (k + 1) n

/-- The listed bytes of FW_BUF once it is padded to a multiple of 8 (42_seal R165). -/
def paddedBuf (s : State) : List Host.Cell := padZeros s.fwBuf s.fwCnt.toNat (padLength s.fwCnt.toNat - s.fwCnt.toNat)

/-- The padded firmware, `FW_BUF[0..pad(FWCNT)-1]` after padding (42_seal R165). -/
def paddedFirmware (s : State) : List Byte :=
  bufBytes (Config.fwFill s.resets) (paddedBuf s) 0 (padLength s.fwCnt.toNat)

/-- The words of a padded firmware in their textual order, `W_k = be64(F[8k], ..., F[8k+7])` (42_seal R167). -/
def textWords : List Byte → List Word
  | b0 :: b1 :: b2 :: b3 :: b4 :: b5 :: b6 :: b7 :: rest => be64 b0 b1 b2 b3 b4 b5 b6 b7 :: textWords rest
  | _ => []

/-- The checksum of 42_seal R168, folded in its fixed order (R169): seed, TARGET, BOOT, SIZE, then each word byte-reversed. -/
def checksum (target boot size : Word) (firmware : List Byte) : Word :=
  (textWords firmware).foldl (fun a w => a ^^^ reverseWordBytes w) (checksumSeed ^^^ target ^^^ boot ^^^ size)

/-- What a SEAL that raises no error leaves: padding, SIZE, ACC and PHASE (42_seal R165 to R170). -/
def sealedState (s : State) : State :=
  { s with
    fwBuf := paddedBuf s
    size := BitVec.ofNat 64 (padLength s.fwCnt.toNat)
    acc := checksum s.target s.boot (BitVec.ofNat 64 (padLength s.fwCnt.toNat)) (paddedFirmware s)
    phase := .sealed }

/-- The rule of SEAL after the checks of R95 (42_seal R160): FW_EMPTY, then ADDR_RANGE, then the image. A padded length past the
capacity has no buffer indices (20_memory R60; log entry 6). -/
def sealImage (p : Params) (s : State) : Result :=
  if s.fwCnt.toNat = 0 then .next (raise .fwEmpty 0x20 s)
  else if inRange s.flash (padLength s.fwCnt.toNat) s.plPresent s.pladdr s.plCnt = false then
    .next (raise .addrRange 0x20 s)
  else if p.fwCap < padLength s.fwCnt.toNat then .fault .bufferIndex
  else .next (sealedState s)

/-- SEAL: pad the firmware, compute `payload_size` and the checksum, freeze the state (42_seal R160). -/
def execSeal (data : Word) (s : State) : Result :=
  perform (.sealFw data) s (sealImage Config.params s)

end Sys2Proof.Machine
end

