-- ==== Sys2Proof/Machine/System.lean ====
section
/-! DEFINITION. The system commands NOP and RESET (44_system R240, R241) and the read port (10_state R38, R39; 44_system R242). -/

namespace Sys2Proof.Machine

/-- NOP: nothing (44_system R240). -/
def execNop (data : Word) (s : State) : Result :=
  perform (.nop data) s (.next s)

/-- RESET: the reset of 70_reset R300 (44_system R241). -/
def execReset (data : Word) (s : State) : Result :=
  perform (.reset data) s (.next (resetBlock s))

/-- CAPS: FW_CAP in bits 31:0, PL_CAP in bits 63:32 (10_state R38). -/
def capsWord (p : Params) : Word := p.plCap ++ BitVec.ofNat 32 p.fwCap

/-- `rd_data` for `rd_idx` in the current state (10_state R39, R47); the reserved indices 0xA to 0xF give 0. -/
def readPort (p : Params) (s : State) (idx : BitVec 4) : Word :=
  match idx.toNat with
  | 0x0 => statusWord s
  | 0x1 => s.target
  | 0x2 => s.boot
  | 0x3 => s.flash
  | 0x4 => s.pladdr
  | 0x5 => s.fwCnt
  | 0x6 => s.plCnt
  | 0x7 => s.size
  | 0x8 => s.acc
  | 0x9 => capsWord p
  | _ => 0x0000000000000000

/-- A read by the HOST: the answer is recorded on the HOST's side and the block does not change (10_state R47; log entry 3). -/
def readTurn (p : Params) (idx : BitVec 4) (s : State) : Result :=
  .next { s with rdOut := s.rdOut ++ [{ idx := idx, data := readPort p s idx }] }

/-- `rst`: the reset of 70_reset R300 in every phase (10_state R44, 70_reset R301); a beat it coincides with is lost
(60_exceptions R267; log entry 9). In EMITTING a presented beat is only held (70_reset R307), and whether `rst` loses it there is the
model's DESIGN CHOICE: the turn says, as in every other phase (log entry 18). -/
def rstTurn (beatLost : Bool) (s : State) : Result :=
  .next { resetBlock s with cmdIn := if beatLost then s.cmdIn.tail else s.cmdIn }

end Sys2Proof.Machine
end

