-- ==== Sys2Proof/Machine/Dispatch.lean ====
section
/-! DEFINITION. The meaning of every command, one arm per row of 30_encoding R93. -/

namespace Sys2Proof.Machine

/-- The ENGINE performs one command (30_encoding R95). -/
def exec (i : Instr) (s : State) : Host.Outcome State Fault Refusal :=
  match i with
  | .nop data => Sys2Proof.Machine.execNop data s
  | .setTarget v => Sys2Proof.Machine.execSetTarget v s
  | .setBoot v => Sys2Proof.Machine.execSetBoot v s
  | .setFlash v => Sys2Proof.Machine.execSetFlash v s
  | .setPladdr v => Sys2Proof.Machine.execSetPladdr v s
  | .fwByte data => Sys2Proof.Machine.execFwByte data s
  | .plByte data => Sys2Proof.Machine.execPlByte data s
  | .sealFw data => Sys2Proof.Machine.execSeal data s
  | .emit data => Sys2Proof.Machine.execEmit data s
  | .reset data => Sys2Proof.Machine.execReset data s

end Sys2Proof.Machine
end

