-- ==== Sys2Proof/Machine/Agents.lean ====
section
/-! DEFINITION. What each turn does: the ENGINE takes a beat, an emitter sends an element, the HOST reads or resets
(00_scope R16; 10_state R44 to R50). -/

namespace Sys2Proof.Machine

/-- A beat with a reserved opcode: ILLEGAL_OPCODE in LOAD, SEALED and DONE, discarded in ERROR, never accepted in EMITTING
(30_encoding R94 to R96). -/
def reservedBeat (opc : Byte) (s : State) : Result :=
  match s.phase with
  | .emitting => .next s
  | .error => .next s
  | _ => .next (raise .illegalOpcode opc s)

/-- The ENGINE executes one accepted beat as one atomic step (30_encoding R95). -/
def executeBeat (w : Beat) (s : State) : Result :=
  match decode w with
  | .ok i => exec i s
  | .error (.reservedOpcode opc) => reservedBeat opc s

/-- `cmd_valid = 1`: the oldest presented beat transfers when `cmd_ready = 1`, and waits otherwise (10_state R46, 70_reset R307).
With no beat presented nothing happens. -/
def engineTurn (s : State) : Result :=
  if cmdReady s then
    match s.cmdIn with
    | [] => .next s
    | w :: rest => executeBeat w { s with cmdIn := rest }
  else .next s

/-- One turn (00_scope R16; log entry 1). -/
def takeTurn (t : Turn) (s : State) : Result :=
  match t with
  | .engine => engineTurn s
  | .txt => txtTurn Config.params s
  | .map => mapTurn Config.params s
  | .read idx => readTurn Config.params idx s
  | .rst beatLost => rstTurn beatLost s

/-- One step: the next turn is taken off the list and performed; with no turn left the block waits (70_reset R303; log entry 2). -/
def nextTurn (s : State) : Result :=
  match s.sched with
  | [] => .next s
  | t :: rest => takeTurn t { s with sched := rest }

/-- The HOST presents a beat next and lets the ENGINE act next (log entry 14). -/
def presentBeat (w : Beat) (s : State) : State :=
  { s with cmdIn := w :: s.cmdIn, sched := .engine :: s.sched }

end Sys2Proof.Machine
end

