-- ==== Sys2Proof/Machine/Step.lean ====
section
/-! DEFINITION. One step of the machine, and how the host of this pipeline has a given beat executed next (log entry 14). -/

namespace Sys2Proof.Machine

/-- One step: one turn of one agent (00_scope R16). -/
def step (s : State) : Host.Outcome State Fault Refusal := nextTurn s

/-- `s` with the beat of value `w`, its bits at and above `nbits` zero, presented on the command port and the ENGINE to act: the block
has no program counter and no instruction memory (10_state R21), so this is where step takes its next command. -/
def State.withFetchWord (s : State) (nbits w : Nat) : State :=
  presentBeat (BitVec.ofNat 72 (w % 2 ^ nbits)) s

end Sys2Proof.Machine
end

