-- ==== Sys2Proof/Machine/Assembler.lean ====
section
/-! DEFINITION. The assembly syntax of 30_encoding R97, the pseudo-instructions of R98, the beats of assembled lines (R99) and
the HOST's command sequence for one build (70_reset R304). A line is its list of characters. -/

namespace Sys2Proof.Machine

/-- Why the assembler refuses a line (30_encoding R97). Refusing is the assembler's answer, never a stop of the machine. -/
inductive AsmError where
  | unknownMnemonic
  | badNumeral
  | operandTooLarge
  | wrongOperands
deriving DecidableEq, Repr

/-- What a line is made of: words, and the commas of a byte list (30_encoding R98). -/
inductive AsmToken where
  | word (chars : List Char)
  | comma
deriving DecidableEq, Repr

/-- A word under way, its characters in reverse, ends here. -/
def endWord (reversed : List Char) : List AsmToken :=
  if reversed.isEmpty then [] else [.word reversed.reverse]

/-- The tokens of a line; text after `;` is a comment (30_encoding R97). Spaces and tabs part words (log entry 15). -/
def asmTokens : List Char → List Char → List AsmToken
  | [], word => endWord word
  | c :: rest, word =>
    if c = ';' then endWord word
    else if c = ',' then endWord word ++ .comma :: asmTokens rest []
    else if c = ' ' ∨ c = '\t' then endWord word ++ asmTokens rest []
    else asmTokens rest (c :: word)

/-- The value of a digit of the base, decimal or hexadecimal; hex letters in either case (log entry 15). -/
def digitValue (base : Nat) (c : Char) : Option Nat :=
  let n := c.toNat
  if '0'.toNat ≤ n ∧ n ≤ '9'.toNat then some (n - '0'.toNat)
  else if base = 16 ∧ 'a'.toNat ≤ n ∧ n ≤ 'f'.toNat then some (n - 'a'.toNat + 10)
  else if base = 16 ∧ 'A'.toNat ≤ n ∧ n ≤ 'F'.toNat then some (n - 'A'.toNat + 10)
  else none

/-- The digits of a numeral, after the value of those already read. -/
def numeralFrom (base : Nat) : Nat → List Char → Except AsmError Nat
  | value, [] => .ok value
  | value, c :: rest =>
    match digitValue base c with
    | none => .error .badNumeral
    | some d => numeralFrom base (value * base + d) rest

/-- A numeral in hexadecimal with prefix `0x` or in decimal (30_encoding R97). -/
def numeral : List Char → Except AsmError Nat
  | [] => .error .badNumeral
  | ['0', 'x'] => .error .badNumeral
  | '0' :: 'x' :: digits => numeralFrom 16 0 digits
  | digits => numeralFrom 10 0 digits

/-- The operands of a line: none, one, or several parted by commas (30_encoding R97, R98). -/
def asmOperands : List AsmToken → Except AsmError (List Nat)
  | [] => .ok []
  | [.word w] => (numeral w).map (fun v => [v])
  | .word w :: .comma :: t :: rest => do
    let v ← numeral w
    let vs ← asmOperands (t :: rest)
    return v :: vs
  | _ => .error .wrongOperands

/-- A `D64` operand is at most `2^64 - 1`, or the line is refused (30_encoding R97). -/
def asmWord (v : Nat) : Except AsmError Word :=
  if v < 2 ^ 64 then .ok (BitVec.ofNat 64 v) else .error .operandTooLarge

/-- A `B8` operand is at most 0xFF, or the line is refused; it is zero-extended to DATA (30_encoding R97, R99). -/
def asmByte (v : Nat) : Except AsmError Word :=
  if v ≤ 0xFF then .ok (BitVec.ofNat 64 v) else .error .operandTooLarge

/-- The FW_BYTE commands of a byte list, in order (30_encoding R98). -/
def asmFwBytes : List Nat → Except AsmError (List Instr)
  | [] => .ok []
  | v :: vs => do
    let b ← asmByte v
    let rest ← asmFwBytes vs
    return .fwByte b :: rest

/-- The PL_BYTE commands of a byte list, in order (30_encoding R98). -/
def asmPlBytes : List Nat → Except AsmError (List Instr)
  | [] => .ok []
  | v :: vs => do
    let b ← asmByte v
    let rest ← asmPlBytes vs
    return .plByte b :: rest

/-- The mnemonics of 30_encoding R93 and the pseudo-instructions of R98. -/
inductive AsmName where
  | nop
  | setTarget
  | setBoot
  | setFlash
  | setPladdr
  | fwByte
  | plByte
  | sealFw
  | emit
  | reset
  | fwBytes
  | plBytes
  | header
  | payload
  | build
deriving DecidableEq, Repr

/-- The ten mnemonics of 30_encoding R93, in its order; they are upper case. -/
def asmMnemonics : List (List Char × AsmName) :=
  [(['N', 'O', 'P'], .nop),
    (['S', 'E', 'T', '_', 'T', 'A', 'R', 'G', 'E', 'T'], .setTarget),
    (['S', 'E', 'T', '_', 'B', 'O', 'O', 'T'], .setBoot),
    (['S', 'E', 'T', '_', 'F', 'L', 'A', 'S', 'H'], .setFlash),
    (['S', 'E', 'T', '_', 'P', 'L', 'A', 'D', 'D', 'R'], .setPladdr),
    (['F', 'W', '_', 'B', 'Y', 'T', 'E'], .fwByte),
    (['P', 'L', '_', 'B', 'Y', 'T', 'E'], .plByte),
    (['S', 'E', 'A', 'L'], .sealFw),
    (['E', 'M', 'I', 'T'], .emit),
    (['R', 'E', 'S', 'E', 'T'], .reset)]

/-- The five pseudo-instructions of 30_encoding R98, in its order. -/
def asmPseudos : List (List Char × AsmName) :=
  [(['F', 'W', '_', 'B', 'Y', 'T', 'E', 'S'], .fwBytes),
    (['P', 'L', '_', 'B', 'Y', 'T', 'E', 'S'], .plBytes),
    (['H', 'E', 'A', 'D', 'E', 'R'], .header),
    (['P', 'A', 'Y', 'L', 'O', 'A', 'D'], .payload),
    (['B', 'U', 'I', 'L', 'D'], .build)]

/-- A command with no operand (30_encoding R97). -/
def asmNone (cs : List Instr) (vs : List Nat) : Except AsmError (List Instr) :=
  match vs with
  | [] => .ok cs
  | _ => .error .wrongOperands

/-- A command with one `D64` operand (30_encoding R97). -/
def asmD64 (command : Word → Instr) (vs : List Nat) : Except AsmError (List Instr) :=
  match vs with
  | [v] => (asmWord v).map (fun d => [command d])
  | _ => .error .wrongOperands

/-- The commands of a line with this name and these operands (30_encoding R97, R98). -/
def asmCommands (name : AsmName) (vs : List Nat) : Except AsmError (List Instr) :=
  match name with
  | .nop => asmNone [.nop 0] vs
  | .setTarget => asmD64 .setTarget vs
  | .setBoot => asmD64 .setBoot vs
  | .setFlash => asmD64 .setFlash vs
  | .setPladdr => asmD64 .setPladdr vs
  | .fwByte =>
    match vs with
    | [v] => asmFwBytes [v]
    | _ => .error .wrongOperands
  | .plByte =>
    match vs with
    | [v] => asmPlBytes [v]
    | _ => .error .wrongOperands
  | .sealFw => asmNone [.sealFw 0] vs
  | .emit => asmNone [.emit 0] vs
  | .reset => asmNone [.reset 0] vs
  | .fwBytes => asmFwBytes vs
  | .plBytes => asmPlBytes vs
  | .header =>
    match vs with
    | [t, b, f] => do
      let t ← asmWord t
      let b ← asmWord b
      let f ← asmWord f
      return [.setTarget t, .setBoot b, .setFlash f]
    | _ => .error .wrongOperands
  | .payload =>
    match vs with
    | a :: bytes => do
      let a ← asmWord a
      let rest ← asmPlBytes bytes
      return .setPladdr a :: rest
    | [] => .error .wrongOperands
  | .build => asmNone [.sealFw 0, .emit 0] vs

/-- One line of assembly; a line with nothing but a comment gives no command (30_encoding R97; log entry 15). -/
def assembleLine (line : List Char) : Except AsmError (List Instr) :=
  match asmTokens line [] with
  | [] => .ok []
  | .word m :: rest =>
    match (asmMnemonics ++ asmPseudos).lookup m with
    | none => .error .unknownMnemonic
    | some name => do
      let vs ← asmOperands rest
      asmCommands name vs
  | .comma :: _ => .error .wrongOperands

/-- The beats of a program, one command per line (30_encoding R97, R99). R97 says only that a line is refused; that a program with a
refused line gives no beats at all, and the first refusal as its answer, is the model's DESIGN CHOICE (log entry 15). -/
def assemble : List (List Char) → Except AsmError (List Beat)
  | [] => .ok []
  | line :: rest => do
    let is ← assembleLine line
    let ws ← assemble rest
    return is.map encode ++ ws

/-- The FW_BYTE commands of a firmware, in forward order (70_reset R304, step 4). -/
def fwCommands (firmware : List Byte) : List Instr := firmware.map (fun b => .fwByte (b.setWidth 64))

/-- The PL_BYTE commands of a payload, in forward order (70_reset R304, step 3). -/
def plCommands (payload : List Byte) : List Instr := payload.map (fun b => .plByte (b.setWidth 64))

/-- The commands of one build in the order of 70_reset R304, after a reset: configuration, payload, firmware, SEAL, EMIT. -/
def buildCommands (target boot flash : Word) (payload : Option (Word × List Byte)) (firmware : List Byte) : List Instr :=
  [.setTarget target, .setBoot boot, .setFlash flash]
    ++ (match payload with
        | none => []
        | some (a, bs) => .setPladdr a :: plCommands bs)
    ++ fwCommands firmware ++ [.sealFw 0, .emit 0]

end Sys2Proof.Machine
end

