-- ==== Sys2Proof/Safety.lean ====
section
/-! DEFINITION. What counts as a safe run: the invariant of the block, the image SEAL leaves, the frozen registers, and the whole
artifacts an emission sends. Every predicate is over the parameters of 00_scope R11, so a claim names the block's own. -/

namespace Sys2Proof.Machine

/-- The phases in which the image is frozen (10_state R23). -/
def frozenPhase : Phase → Bool
  | .load => false
  | .sealed => true
  | .emitting => true
  | .done => true
  | .error => false

/-- The eleven registers and buffers of 10_state R23 and 42_seal R170 are the same in both states, the buffers with their unspecified
bytes (log entry 5). -/
def SameImage (s t : State) : Prop :=
  t.target = s.target ∧ t.boot = s.boot ∧ t.flash = s.flash ∧ t.pladdr = s.pladdr ∧ t.plPresent = s.plPresent
    ∧ t.fwCnt = s.fwCnt ∧ t.plCnt = s.plCnt ∧ t.size = s.size ∧ t.acc = s.acc ∧ t.fwBuf = s.fwBuf ∧ t.plBuf = s.plBuf
    ∧ t.resets = s.resets

/-- The block's own state, 10_state R20, is the same in both states. -/
def SameBlock (s t : State) : Prop :=
  SameImage s t ∧ t.phase = s.phase ∧ t.errCode = s.errCode ∧ t.errOpc = s.errOpc ∧ t.txtCur = s.txtCur
    ∧ t.mapCur = s.mapCur ∧ t.txtDone = s.txtDone ∧ t.mapDone = s.mapDone

/-- The state of the block after one more reset: the values of 10_state R45, and new unspecified contents in the buffers (log entry 5). -/
def AfterReset (s t : State) : Prop := SameBlock { State.reset with resets := s.resets + 1 } t

/-- The bytes below `n` have been written since the last reset, so none of them is unspecified (10_state R42). -/
def WrittenBelow (m : List Host.Cell) (n : Nat) : Prop := ∀ k, k < n → (bufFind m k).isSome = true

/-- Counters within the capacities, buffers in canonical form, absorbed bytes present, no payload byte without a payload
(10_state R29, R30; 20_memory R60 to R62; 41_absorb R142). -/
def BufferInv (p : Params) (s : State) : Prop :=
  s.fwCnt.toNat ≤ p.fwCap ∧ s.plCnt.toNat ≤ p.plCap.toNat
    ∧ bufWf p.fwCap s.fwBuf = true ∧ bufWf p.plCap.toNat s.plBuf = true
    ∧ WrittenBelow s.fwBuf s.fwCnt.toNat ∧ WrittenBelow s.plBuf s.plCnt.toNat
    ∧ (s.plPresent = false → s.plCnt = 0)

/-- An error is recorded exactly in phase ERROR, with one of the seven codes (60_exceptions R261, R264). -/
def ErrorInv (s : State) : Prop :=
  (s.phase = .error ↔ s.errCode ≠ 0) ∧ s.errCode.toNat ≤ 7 ∧ (s.errCode = 0 → s.errOpc = 0)

/-- SIZE and ACC as reset leaves them (10_state R45). -/
def Unsealed (s : State) : Prop := s.size = 0 ∧ s.acc = checksumSeed

/-- What a SEAL that raised no error leaves (42_seal R160 to R168). -/
def SealedImage (s : State) : Prop :=
  s.fwCnt ≠ 0 ∧ s.size.toNat = padLength s.fwCnt.toNat
    ∧ inRange s.flash s.size.toNat s.plPresent s.pladdr s.plCnt = true
    ∧ WrittenBelow s.fwBuf s.size.toNat
    ∧ s.acc = checksum s.target s.boot s.size (firmwareBytes s)
    ∧ ∀ k, s.fwCnt.toNat ≤ k → k < s.size.toNat → fwByteAt s k = 0x00

/-- SIZE and ACC in each phase (10_state R31, R32; 44_system R242). -/
def ImageInv (s : State) : Prop :=
  match s.phase with
  | .load => Unsealed s
  | .sealed => SealedImage s
  | .emitting => SealedImage s
  | .done => SealedImage s
  | .error => Unsealed s ∨ SealedImage s

/-- A cursor within its sequence, the done bit set exactly at its end (43_emit R191). -/
def CursorAt (length : Nat) (cur : Word) (done : Bool) : Prop :=
  cur.toNat ≤ length ∧ (done = true ↔ cur.toNat = length)

/-- The transfers of a whole TXT artifact, `last` on its final octet (43_emit R191, R204). -/
def txtTransfers (q : List Byte) : List TxtXfer :=
  q.mapIdx (fun i o => { octet := o, last := decide (i + 1 = q.length) })

/-- The transfers of a whole MAP artifact, `last` on its final record (43_emit R191, R216). -/
def mapTransfers (q : List Host.Cell) : List MapXfer :=
  q.mapIdx (fun i r => { addr := BitVec.ofNat 64 r.1, data := r.2, last := decide (i + 1 = q.length) })

/-- The HOST has accepted exactly the elements of the running or finished emission before the cursors (43_emit R191, R192). -/
def SentSoFar (p : Params) (s : State) : Prop :=
  CursorAt (txtSeq p.hexCase s).length s.txtCur s.txtDone ∧ CursorAt (mapSeq s).length s.mapCur s.mapDone
    ∧ (∃ before, s.txtOut = before ++ (txtTransfers (txtSeq p.hexCase s)).take s.txtCur.toNat)
    ∧ (∃ before, s.mapOut = before ++ (mapTransfers (mapSeq s)).take s.mapCur.toNat)

/-- The emitter bookkeeping in each phase (10_state R34, R45; 43_emit R191, R192). -/
def EmissionInv (p : Params) (s : State) : Prop :=
  match s.phase with
  | .load => s.txtCur = 0 ∧ s.mapCur = 0 ∧ s.txtDone = false ∧ s.mapDone = false
  | .sealed => s.txtCur = 0 ∧ s.mapCur = 0 ∧ s.txtDone = false ∧ s.mapDone = false
  | .emitting => SentSoFar p s ∧ (s.txtDone && s.mapDone) = false
  | .done => SentSoFar p s ∧ (s.txtDone && s.mapDone) = true
  | .error => True

/-- The invariant of the block. -/
def Inv (p : Params) (s : State) : Prop :=
  BufferInv p s ∧ ErrorInv s ∧ ImageInv s ∧ EmissionInv p s

end Sys2Proof.Machine
end

