-- ==== Sys2Proof/Certificates/Slice0/Obligations.lean ====
section
/-! DEFINITION. The statements for the provers, from the numbered rules of spec/. Where a statement rests on a choice of the model,
its docstring names the log entry. -/

open Sys2Proof Sys2Proof.Machine

/-! ### Encoding -/

/-- 30_encoding R90, R91, R93, R94, R99: decoding an encoded command gives it back, a decoded beat encodes to itself, and exactly
the beats with an opcode outside the table of R93 are refused, by their opcode. -/
def Obligations.DecodeEncodeAgree : Prop :=
  (∀ i : Instr, decode (encode i) = .ok i)
  ∧ (∀ (w : Beat) (i : Instr), decode w = .ok i → encode i = w)
  ∧ (∀ w : Beat, decode w = .error (.reservedOpcode (beatOpc w)) ↔
      beatOpc w ∉ ([0x00, 0x01, 0x02, 0x03, 0x04, 0x10, 0x11, 0x20, 0x21, 0xFF] : List Byte))

/-- 30_encoding R99 and 95_test_vectors: beats written out in the spec decode to the commands they stand for. -/
def Obligations.WrittenBeatsDecode : Prop :=
  decode 0x030000000002000000 = .ok (.setFlash 0x2000000)
  ∧ decode 0x100000000000000001 = .ok (.fwByte 0x01)
  ∧ decode 0x200000000000000000 = .ok (.sealFw 0)
  ∧ decode 0xFF0000000000000000 = .ok (.reset 0)
  ∧ decode 0x000000000000001234 = .ok (.nop 0x1234)
  ∧ decode 0x050000000000000000 = .error (.reservedOpcode 0x05)

/-- 30_encoding R97, R98, R99: every command the assembler gives for a line is well formed, so its must-be-zero bits are zero.
How a line is read in detail is the model's choice (log entry 15). -/
def Obligations.AssembledCommandsAreWellFormed : Prop :=
  ∀ (line : List Char) (cs : List Instr), assembleLine line = .ok cs → ∀ i ∈ cs, i.wellFormed = true

/-! ### The checks of a beat -/

/-- 30_encoding R92, R95: a nonzero must-be-zero bit of form B8 or Z raises RESERVED_OPERAND, once phase and presence permit the
command, with no other effect. -/
def Obligations.MustBeZeroBitsRaiseReservedOperand : Prop :=
  ∀ (d : Word) (s : State),
    (s.phase = .load → 0xFF < d.toNat → exec (.fwByte d) s = .next (raise .reservedOperand 0x10 s))
    ∧ (s.phase = .load → s.plPresent = true → 0xFF < d.toNat →
        exec (.plByte d) s = .next (raise .reservedOperand 0x11 s))
    ∧ (s.phase = .load → d ≠ 0 → exec (.sealFw d) s = .next (raise .reservedOperand 0x20 s))
    ∧ ((s.phase = .sealed ∨ s.phase = .done) → d ≠ 0 → exec (.emit d) s = .next (raise .reservedOperand 0x21 s))

/-- 30_encoding R96: a command outside its phases raises SEQUENCE whatever its DATA, and so does PL_BYTE with no payload declared. -/
def Obligations.CommandOutsideItsPhaseRaisesSequence : Prop :=
  ∀ (d : Word) (s : State),
    ((s.phase = .sealed ∨ s.phase = .done) →
      exec (.setTarget d) s = .next (raise .sequence 0x01 s)
      ∧ exec (.setBoot d) s = .next (raise .sequence 0x02 s)
      ∧ exec (.setFlash d) s = .next (raise .sequence 0x03 s)
      ∧ exec (.setPladdr d) s = .next (raise .sequence 0x04 s)
      ∧ exec (.fwByte d) s = .next (raise .sequence 0x10 s)
      ∧ exec (.plByte d) s = .next (raise .sequence 0x11 s)
      ∧ exec (.sealFw d) s = .next (raise .sequence 0x20 s))
    ∧ (s.phase = .load → exec (.emit d) s = .next (raise .sequence 0x21 s))
    ∧ (s.phase = .load → s.plPresent = false → exec (.plByte d) s = .next (raise .sequence 0x11 s))

/-- 30_encoding R94, R95: a beat with a reserved opcode raises ILLEGAL_OPCODE in LOAD, SEALED and DONE, and is discarded in ERROR. -/
def Obligations.ReservedOpcodeRaisesIllegalOpcode : Prop :=
  ∀ (w : Beat) (s : State),
    beatOpc w ∉ ([0x00, 0x01, 0x02, 0x03, 0x04, 0x10, 0x11, 0x20, 0x21, 0xFF] : List Byte) →
    ((s.phase = .load ∨ s.phase = .sealed ∨ s.phase = .done) →
      executeBeat w s = .next (raise .illegalOpcode (beatOpc w) s))
    ∧ (s.phase = .error → executeBeat w s = .next s)

/-- 60_exceptions R265: in phase ERROR every beat but RESET is discarded with no effect, no channel is active, and no step that stays
in ERROR changes the recorded error. -/
def Obligations.ErrorPhaseDiscardsEveryBeatButReset : Prop :=
  ∀ s : State, s.phase = .error →
    (∀ w : Beat, beatOpc w ≠ 0xFF → executeBeat w s = .next s)
    ∧ txtValid s = false ∧ mapValid s = false
    ∧ (∀ t, step s = .next t → t.phase = .error → t.errCode = s.errCode ∧ t.errOpc = s.errOpc)

/-- 10_state R46, 70_reset R307: `cmd_ready` is 0 exactly in EMITTING, and there a presented beat waits: an ENGINE turn takes no beat
and changes nothing. That such a turn is a step at all is the model's choice (log entry 2). -/
def Obligations.BeatsAreHeldDuringEmission : Prop :=
  (∀ s : State, cmdReady s = true ↔ s.phase ≠ .emitting)
  ∧ (∀ (s : State) (rest : List Turn), s.phase = .emitting → s.sched = .engine :: rest →
      step s = .next { s with sched := rest })

/-! ### Errors -/

/-- 60_exceptions R264: `raise E(opc)` records the code and the opcode if none is recorded yet, enters ERROR so that `err` is 1 and
`done` is 0, and nothing else changes. -/
def Obligations.RaiseRecordsTheFirstErrorOnly : Prop :=
  ∀ (e : ErrCause) (opc : Byte) (s : State),
    (s.errCode = 0 → (raise e opc s).errCode = errorCode e ∧ (raise e opc s).errOpc = opc)
    ∧ (s.errCode ≠ 0 → (raise e opc s).errCode = s.errCode ∧ (raise e opc s).errOpc = s.errOpc)
    ∧ (raise e opc s).phase = .error ∧ errLevel (raise e opc s) = true ∧ doneLevel (raise e opc s) = false
    ∧ SameImage s (raise e opc s)
    ∧ (raise e opc s).txtCur = s.txtCur ∧ (raise e opc s).mapCur = s.mapCur
    ∧ (raise e opc s).txtDone = s.txtDone ∧ (raise e opc s).mapDone = s.mapDone
    ∧ (raise e opc s).cmdIn = s.cmdIn ∧ (raise e opc s).sched = s.sched
    ∧ (raise e opc s).txtOut = s.txtOut ∧ (raise e opc s).mapOut = s.mapOut ∧ (raise e opc s).rdOut = s.rdOut

/-- 60_exceptions R261: the code of each cause. -/
def Obligations.ErrorCodesOfTheTable : Prop :=
  errorCode .illegalOpcode = 0x01 ∧ errorCode .sequence = 0x02 ∧ errorCode .reservedOperand = 0x03
  ∧ errorCode .fwOverflow = 0x04 ∧ errorCode .plOverflow = 0x05 ∧ errorCode .fwEmpty = 0x06
  ∧ errorCode .addrRange = 0x07

/-- 60_exceptions R260, R262, R263: a step enters phase ERROR only by raising one error for the beat it accepts, with that beat's
opcode, and with no other effect than taking the beat. -/
def Obligations.ErrorsArePrecise : Prop :=
  ∀ s t : State, s.phase ≠ .error → step s = .next t → t.phase = .error →
    ∃ (e : ErrCause) (w : Beat) (ws : List Beat) (rest : List Turn),
      s.sched = .engine :: rest ∧ s.cmdIn = w :: ws
      ∧ t = raise e (beatOpc w) { s with sched := rest, cmdIn := ws }

/-! ### The commands -/

/-- 44_system R240: NOP changes nothing in every phase in which a beat is accepted, whatever its DATA. -/
def Obligations.NopChangesNothing : Prop :=
  ∀ (d : Word) (s : State), s.phase ≠ .emitting → exec (.nop d) s = .next s

/-- 40_config R120 to R124: in LOAD each SET_* command writes its register with the whole of DATA, SET_PLADDR sets PL_PRESENT as
well, and nothing else changes. -/
def Obligations.SetCommandsWriteTheirRegister : Prop :=
  ∀ (v : Word) (s : State), s.phase = .load →
    exec (.setTarget v) s = .next { s with target := v }
    ∧ exec (.setBoot v) s = .next { s with boot := v }
    ∧ exec (.setFlash v) s = .next { s with flash := v }
    ∧ exec (.setPladdr v) s = .next { s with pladdr := v, plPresent := true }

/-- 41_absorb R141: FW_BYTE in LOAD with room left stores its byte at index FWCNT and adds 1 to FWCNT; every other byte of the buffer
and every other part of the state is as before. -/
def Obligations.FwByteAppendsOneByte : Prop :=
  ∀ (d : Word) (s : State), s.phase = .load → d.toNat ≤ 0xFF → s.fwCnt.toNat < Config.params.fwCap →
    ∃ t, exec (.fwByte d) s = .next t
      ∧ t = { s with fwBuf := t.fwBuf, fwCnt := t.fwCnt }
      ∧ t.fwCnt.toNat = s.fwCnt.toNat + 1
      ∧ fwByteAt t s.fwCnt.toNat = BitVec.ofNat 8 d.toNat
      ∧ ∀ k, k ≠ s.fwCnt.toNat → fwByteAt t k = fwByteAt s k

/-- 41_absorb R142: PL_BYTE in LOAD with a payload declared and room left stores its byte at index PLCNT and adds 1 to PLCNT; every
other byte of the buffer and every other part of the state is as before. PL_CAP may be 0 (00_scope R11), so this is said for every
legal parameters `p`, of which the block's own are one (log entry 4). -/
def Obligations.PlByteAppendsOneByte : Prop :=
  ∀ (p : Params) (d : Word) (s : State), s.phase = .load → s.plPresent = true → d.toNat ≤ 0xFF →
    s.plCnt.toNat < p.plCap.toNat →
    ∃ t, (p = Config.params → exec (.plByte d) s = .next t)
      ∧ perform (.plByte d) s (absorbPl p (byteOperand d) s) = .next t
      ∧ t = { s with plBuf := t.plBuf, plCnt := t.plCnt }
      ∧ t.plCnt.toNat = s.plCnt.toNat + 1
      ∧ plByteAt t s.plCnt.toNat = BitVec.ofNat 8 d.toNat
      ∧ ∀ k, k ≠ s.plCnt.toNat → plByteAt t k = plByteAt s k

/-- 41_absorb R141, R142: a byte for a full buffer raises FW_OVERFLOW or PL_OVERFLOW and is not stored. -/
def Obligations.FullBufferRaisesOverflow : Prop :=
  ∀ (d : Word) (s : State), s.phase = .load → d.toNat ≤ 0xFF →
    (s.fwCnt.toNat = Config.params.fwCap → exec (.fwByte d) s = .next (raise .fwOverflow 0x10 s))
    ∧ (s.plPresent = true → s.plCnt.toNat = Config.params.plCap.toNat →
        exec (.plByte d) s = .next (raise .plOverflow 0x11 s))

/-- 42_seal R160 to R168: SEAL in LOAD on a nonempty firmware whose regions stay below `2^64` pads the firmware with zeros to a
multiple of 8, sets SIZE to the padded length and ACC to the checksum of the padded firmware, and enters SEALED; bytes outside the
padding and every other part of the state are as before. That FWCNT is within the capacity holds in every state a run reaches (see
StepKeepsInvariant). -/
def Obligations.SealBuildsTheImage : Prop :=
  ∀ s : State, s.phase = .load → s.fwCnt ≠ 0 → s.fwCnt.toNat ≤ Config.params.fwCap →
    s.flash.toNat + 32 + 8 * ((s.fwCnt.toNat + 7) / 8) ≤ 2 ^ 64 →
    (s.plPresent = true → s.plCnt ≠ 0 → s.pladdr.toNat + s.plCnt.toNat ≤ 2 ^ 64) →
    ∃ t, exec (.sealFw 0) s = .next t
      ∧ t = { s with fwBuf := t.fwBuf, size := t.size, acc := t.acc, phase := .sealed }
      ∧ t.size.toNat = 8 * ((s.fwCnt.toNat + 7) / 8)
      ∧ (∀ k, s.fwCnt.toNat ≤ k → k < t.size.toNat → fwByteAt t k = 0x00)
      ∧ (∀ k, k < s.fwCnt.toNat ∨ t.size.toNat ≤ k → fwByteAt t k = fwByteAt s k)
      ∧ (firmwareBytes t).length = t.size.toNat
      ∧ (∀ k, k < t.size.toNat → (firmwareBytes t)[k]? = some (fwByteAt t k))
      ∧ t.acc = checksum s.target s.boot t.size (firmwareBytes t)

/-- 42_seal R161, 60_exceptions R266: SEAL with no firmware byte absorbed raises FW_EMPTY, whatever the addresses. -/
def Obligations.SealOfEmptyFirmwareRaises : Prop :=
  ∀ s : State, s.phase = .load → s.fwCnt = 0 → exec (.sealFw 0) s = .next (raise .fwEmpty 0x20 s)

/-- 42_seal R164: SEAL raises ADDR_RANGE when the primary region or a nonempty payload region would pass map address `2^64 - 1`. -/
def Obligations.SealPastTheMapRaises : Prop :=
  ∀ s : State, s.phase = .load → s.fwCnt ≠ 0 →
    (2 ^ 64 < s.flash.toNat + 32 + 8 * ((s.fwCnt.toNat + 7) / 8)
      ∨ (s.plPresent = true ∧ s.plCnt ≠ 0 ∧ 2 ^ 64 < s.pladdr.toNat + s.plCnt.toNat)) →
    exec (.sealFw 0) s = .next (raise .addrRange 0x20 s)

/-- 42_seal R163: after SEAL, SIZE is a multiple of 8, the absorbed bytes are unchanged, the bytes from FWCNT to SIZE are 0x00, and
there are at most 7 of them. -/
def Obligations.PaddingLaws : Prop :=
  ∀ (d : Word) (s t : State), s.phase = .load → exec (.sealFw d) s = .next t → t.phase = .sealed →
    t.size.toNat % 8 = 0 ∧ t.fwCnt = s.fwCnt
    ∧ (∀ k, k < t.fwCnt.toNat → fwByteAt t k = fwByteAt s k)
    ∧ (∀ k, t.fwCnt.toNat ≤ k → k < t.size.toNat → fwByteAt t k = 0x00)
    ∧ t.fwCnt.toNat ≤ t.size.toNat ∧ t.size.toNat - t.fwCnt.toNat ≤ 7

/-- 43_emit R190: EMIT in SEALED or DONE clears both cursors and both done bits and enters EMITTING, and changes nothing else. -/
def Obligations.EmitStartsBothEmitters : Prop :=
  ∀ s : State, s.phase = .sealed ∨ s.phase = .done →
    exec (.emit 0) s
      = .next { s with txtCur := 0, mapCur := 0, txtDone := false, mapDone := false, phase := .emitting }

/-- 44_system R241, 70_reset R300, R301: RESET in every phase but EMITTING, whatever its DATA, and `rst` in every phase, leave the
block with the values of R45 and new unspecified buffer contents (log entry 5). What the HOST has received and has still to do is
not the block's state and stays, but for a beat that coincides with `rst`, which is lost (60_exceptions R267; log entries 3 and 9;
for a beat that EMITTING only holds, the model's choice of log entry 18). -/
def Obligations.ResetAndRstRestoreTheResetState : Prop :=
  (∀ (d : Word) (s : State), s.phase ≠ .emitting →
    ∃ t, exec (.reset d) s = .next t ∧ AfterReset s t
      ∧ t.cmdIn = s.cmdIn ∧ t.sched = s.sched ∧ t.txtOut = s.txtOut ∧ t.mapOut = s.mapOut ∧ t.rdOut = s.rdOut)
  ∧ (∀ (s : State) (lost : Bool) (rest : List Turn), s.sched = .rst lost :: rest →
    ∃ t, step s = .next t ∧ AfterReset s t
      ∧ t.cmdIn = (if lost then s.cmdIn.tail else s.cmdIn) ∧ t.sched = rest
      ∧ t.txtOut = s.txtOut ∧ t.mapOut = s.mapOut ∧ t.rdOut = s.rdOut)

/-- 10_state R45, 70_reset R300: the values the spec gives for reset. It gives none for the bytes of the buffers. -/
def Obligations.ResetValues : Prop :=
  State.reset.phase = .load
  ∧ State.reset.target = 0 ∧ State.reset.boot = 0 ∧ State.reset.flash = 0 ∧ State.reset.pladdr = 0
  ∧ State.reset.plPresent = false ∧ State.reset.fwCnt = 0 ∧ State.reset.plCnt = 0 ∧ State.reset.size = 0
  ∧ State.reset.acc = 0xFFFFFFFFFFFFFFFF ∧ State.reset.errCode = 0 ∧ State.reset.errOpc = 0
  ∧ State.reset.txtCur = 0 ∧ State.reset.mapCur = 0 ∧ State.reset.txtDone = false ∧ State.reset.mapDone = false
  ∧ cmdReady State.reset = true ∧ doneLevel State.reset = false ∧ errLevel State.reset = false
  ∧ txtValid State.reset = false ∧ mapValid State.reset = false
  ∧ statusWord State.reset = 0x0000000000000000

/-! ### The checksum -/

/-- 00_scope R14: byte `i` of `reverseWordBytes(w)` is byte `7 - i` of `w`, and it is `byte_0(w) ++ ... ++ byte_7(w)`. By 20_memory R68 the
big-endian word of 8 bytes becomes their little-endian word. -/
def Obligations.ReverseWordBytesMirrorsTheBytes : Prop :=
  (∀ (w : Word) (i : Nat), i ≤ 7 → byteOf (reverseWordBytes w) i = byteOf w (7 - i))
  ∧ (∀ w : Word, reverseWordBytes w = byteOf w 0 ++ byteOf w 1 ++ byteOf w 2 ++ byteOf w 3 ++ byteOf w 4 ++ byteOf w 5
      ++ byteOf w 6 ++ byteOf w 7)
  ∧ (∀ b0 b1 b2 b3 b4 b5 b6 b7 : Byte, reverseWordBytes (be64 b0 b1 b2 b3 b4 b5 b6 b7) = le64 b0 b1 b2 b3 b4 b5 b6 b7)

/-- 42_seal R167, R168, 20_memory R68: the checksum of no word is the seed, TARGET, BOOT and SIZE exclusive-ored, and each further word
of 8 bytes is exclusive-ored in as its little-endian value. -/
def Obligations.ChecksumFoldsWordsLittleEndian : Prop :=
  (∀ target boot size : Word, checksum target boot size [] = 0xFFFFFFFFFFFFFFFF ^^^ target ^^^ boot ^^^ size)
  ∧ (∀ (target boot size : Word) (words : List Byte) (b0 b1 b2 b3 b4 b5 b6 b7 : Byte), words.length % 8 = 0 →
      checksum target boot size (words ++ [b0, b1, b2, b3, b4, b5, b6, b7])
        = checksum target boot size words ^^^ (b7 ++ b6 ++ b5 ++ b4 ++ b3 ++ b2 ++ b1 ++ b0))

/-- 42_seal R173, first law: changing firmware byte `8k + i` from `x` to `y` changes the checksum by exactly `(x ^ y) << 8i`, so every
single-byte change changes it. -/
def Obligations.ChecksumSeesEverySingleByteChange : Prop :=
  ∀ (target boot size : Word) (firmware : List Byte) (j : Nat) (x y : Byte),
    firmware.length % 8 = 0 → firmware[j]? = some x →
    checksum target boot size (firmware.set j y)
        = checksum target boot size firmware ^^^ ((x ^^^ y).setWidth 64 <<< (8 * (j % 8)))
    ∧ (x ≠ y → checksum target boot size (firmware.set j y) ≠ checksum target boot size firmware)

/-- 42_seal R169, R173, the other laws: the order of the words does not matter, two equal words cancel, appended zero words change
nothing but through SIZE, and changing TARGET or BOOT by `d` changes the checksum by `d`. -/
def Obligations.ChecksumOrderCancellationAndTerms : Prop :=
  (∀ (target boot size : Word) (f g : List Byte), (textWords f).Perm (textWords g) →
    checksum target boot size f = checksum target boot size g)
  ∧ (∀ (target boot size : Word) (w : List Byte), w.length = 8 →
      checksum target boot size (w ++ w) = 0xFFFFFFFFFFFFFFFF ^^^ target ^^^ boot ^^^ size)
  ∧ (∀ (target boot size : Word) (f : List Byte) (n : Nat), f.length % 8 = 0 →
      checksum target boot size (f ++ List.replicate (8 * n) 0x00) = checksum target boot size f)
  ∧ (∀ (target boot size d : Word) (f : List Byte),
      checksum (target ^^^ d) boot size f = checksum target boot size f ^^^ d
      ∧ checksum target (boot ^^^ d) size f = checksum target boot size f ^^^ d)

/-! ### The two artifacts -/

/-- 00_scope R13, 43_emit R194: `hexmin(v)` spells `v` in hexadecimal digits with no leading zero (`0` for zero), `hex8(v)` is it padded
with `0` on the left to at least 8 characters, `hex2(b)` is the high nibble's digit and then the low nibble's, and each digit has its
ASCII value in the case HEX_CASE names (the spec's values from general knowledge, log entry 13). -/
def Obligations.HexSpellings : Prop :=
  (∀ (c : HexCase) (v : Word),
    (∃ digits : List (BitVec 4), hexmin c v = digits.map (hexDigit c)
      ∧ digits.foldl (fun a d => 16 * a + d.toNat) 0 = v.toNat
      ∧ digits ≠ [] ∧ (digits.head? = some 0 → v = 0 ∧ digits = [0]))
    ∧ (∃ zeros, hex8 c v = List.replicate zeros 0x30 ++ hexmin c v)
    ∧ (hex8 c v).length = max 8 (hexmin c v).length)
  ∧ (∀ (c : HexCase) (b : Byte), ∃ high low : BitVec 4,
      hex2 c b = [hexDigit c high, hexDigit c low] ∧ b.toNat = 16 * high.toNat + low.toNat)
  ∧ (∀ (c : HexCase) (d : BitVec 4), d.toNat < 10 → (hexDigit c d).toNat = 0x30 + d.toNat)
  ∧ (∀ d : BitVec 4, 10 ≤ d.toNat →
      (hexDigit .lower d).toNat = 0x61 + (d.toNat - 10) ∧ (hexDigit .upper d).toNat = 0x41 + (d.toNat - 10))

/-- 43_emit R202: the number of octets and of lines of TxtSeq; with SIZE at least 8 there are at least 127 octets. -/
def Obligations.TextSize : Prop :=
  ∀ (c : HexCase) (s : State),
    (txtSeq c s).length = (hexmin c s.flash).length + 2 + 100 + 3 * s.size.toNat
        + (if s.plPresent then 5 + (hex8 c s.pladdr).length + 2 + 3 * s.plCnt.toNat else 0)
    ∧ (txtSeq c s).count 0x0A = 1 + 36 + s.size.toNat + (if s.plPresent then 6 + s.plCnt.toNat else 0)
    ∧ (8 ≤ s.size.toNat → 127 ≤ (txtSeq c s).length)

/-- 43_emit R215: the number of records of MapSeq; with SIZE at least 8 there are at least 40. -/
def Obligations.MapSize : Prop :=
  ∀ s : State,
    (mapSeq s).length = 32 + s.size.toNat + (if s.plPresent then s.plCnt.toNat else 0)
    ∧ (8 ≤ s.size.toNat → 40 ≤ (mapSeq s).length)

/-- 43_emit R194, R195: TxtSeq holds `@`, LF, the digits and the six hex letters of HEX_CASE, and no other octet; it ends with LF. Their
ASCII values are the spec's from general knowledge (log entry 13). -/
def Obligations.TextCharacters : Prop :=
  ∀ (c : HexCase) (s : State),
    (∀ o ∈ txtSeq c s, o.toNat = 0x40 ∨ o.toNat = 0x0A ∨ (0x30 ≤ o.toNat ∧ o.toNat ≤ 0x39)
      ∨ (c = .lower ∧ 0x61 ≤ o.toNat ∧ o.toNat ≤ 0x66) ∨ (c = .upper ∧ 0x41 ≤ o.toNat ∧ o.toNat ≤ 0x46))
    ∧ (txtSeq c s).getLast? = some 0x0A

/-- 43_emit R197, R200, R201: TxtSeq starts with the line `@` and `hexmin(FLASH)`; it has one `@` directive without a payload and two
with one, the second, `@` and `hex8(PLADDR)`, after five blank lines. -/
def Obligations.PayloadDirectiveExactlyWhenPresent : Prop :=
  ∀ (c : HexCase) (s : State),
    (txtSeq c s).take ((hexmin c s.flash).length + 2) = 0x40 :: hexmin c s.flash ++ [0x0A]
    ∧ (txtSeq c s).count 0x40 = (if s.plPresent then 2 else 1)
    ∧ (s.plPresent = true →
        ((txtSeq c s).drop ((hexmin c s.flash).length + 2 + 100 + 3 * s.size.toNat)).take (5 + 1 + (hex8 c s.pladdr).length + 1)
          = [0x0A, 0x0A, 0x0A, 0x0A, 0x0A, 0x40] ++ hex8 c s.pladdr ++ [0x0A])

/-- 20_memory R66: for every header field, the 8 bytes its text lines write, read big-endian, and the 8 bytes its map records hold at the
field's addresses, read little-endian, both give the field's value. -/
def Obligations.HeaderFieldRoundTrip : Prop :=
  ∀ (c : HexCase) (s : State) (j : Nat) (v : Word), [s.target, s.boot, s.size, s.acc][j]? = some v →
    ∃ text map : List Byte, text.length = 8 ∧ map.length = 8
      ∧ ((txtSeq c s).drop ((hexmin c s.flash).length + 2 + 25 * j)).take 24 = byteLines c text
      ∧ ((mapSeq s).drop (8 * j)).take 8 = bodyRecords (s.flash.toNat + 8 * j) map
      ∧ text.foldl (fun a b => 256 * a + b.toNat) 0 = v.toNat
      ∧ map.foldr (fun b a => b.toNat + 256 * a) 0 = v.toNat

/-- 43_emit R198, R199, R200, R212, R213, R214, R217: where each header byte, firmware byte and payload byte stands in the text, as its
own byte line, and in the map, as its own record; and in the text a blank line after each header field. -/
def Obligations.TextAndMapCarryTheSameBytes : Prop :=
  ∀ (c : HexCase) (s : State),
    (∀ (j i : Nat) (v : Word), [s.target, s.boot, s.size, s.acc][j]? = some v → i < 8 →
      ((txtSeq c s).drop ((hexmin c s.flash).length + 2 + 25 * j + 3 * (7 - i))).take 3 = hex2 c (byteOf v i) ++ [0x0A]
      ∧ (mapSeq s)[8 * j + i]? = some (s.flash.toNat + 8 * j + i, byteOf v i))
    ∧ (∀ j, j < 4 → (txtSeq c s)[(hexmin c s.flash).length + 2 + 25 * j + 24]? = some 0x0A)
    ∧ (∀ k, k < s.size.toNat →
      ((txtSeq c s).drop ((hexmin c s.flash).length + 2 + 100 + 3 * k)).take 3 = hex2 c (fwByteAt s k) ++ [0x0A]
      ∧ (mapSeq s)[32 + k]? = some (s.flash.toNat + 32 + k, fwByteAt s k))
    ∧ (∀ k, s.plPresent = true → k < s.plCnt.toNat →
      ((txtSeq c s).drop
          ((hexmin c s.flash).length + 2 + 100 + 3 * s.size.toNat + 5 + (hex8 c s.pladdr).length + 2 + 3 * k)).take 3
          = hex2 c (plByteAt s k) ++ [0x0A]
      ∧ (mapSeq s)[32 + s.size.toNat + k]? = some (s.pladdr.toNat + k, plByteAt s k))

/-- 20_memory R79: every map address of a sealed image is at most `2^64 - 1`. -/
def Obligations.MapAddressesStayInTheMap : Prop :=
  ∀ s : State, SealedImage s → ∀ r ∈ mapSeq s, r.1 < 2 ^ 64

/-- 20_memory R77, R81: the primary region puts exactly one byte at each of its addresses and none anywhere else. -/
def Obligations.PrimaryRegionPlacesEachByteOnce : Prop :=
  ∀ (s : State) (firmware : List Byte),
    (∀ (j i : Nat) (v : Word), [s.target, s.boot, s.size, s.acc][j]? = some v → i < 8 →
      mapCandidates (primaryRecords s firmware) (s.flash.toNat + 8 * j + i) = [byteOf v i])
    ∧ (∀ (k : Nat) (b : Byte), firmware[k]? = some b →
      mapCandidates (primaryRecords s firmware) (s.flash.toNat + 32 + k) = [b])
    ∧ (∀ a, a < s.flash.toNat ∨ s.flash.toNat + 32 + firmware.length ≤ a →
      mapCandidates (primaryRecords s firmware) a = [])

/-- 20_memory R69: the primary region of a sealed image's map, read as consecutive little-endian words from FLASH on, is TARGET, BOOT,
SIZE, the checksum and then the words the checksum folded; their exclusive-or is all ones. -/
def Obligations.PrimaryRegionXorsToAllOnes : Prop :=
  ∀ s : State, SealedImage s →
    ((mapSeq s).take (32 + s.size.toNat)).map (fun r => r.1) = List.range' s.flash.toNat (32 + s.size.toNat)
    ∧ (textWords (firmwareBytes s)).length = s.size.toNat / 8
    ∧ (textWords (((mapSeq s).take (32 + s.size.toNat)).map (fun r => r.2))).map reverseWordBytes
        = [s.target, s.boot, s.size, s.acc] ++ (textWords (firmwareBytes s)).map reverseWordBytes
    ∧ ((textWords (((mapSeq s).take (32 + s.size.toNat)).map (fun r => r.2))).map reverseWordBytes).foldl (fun a w => a ^^^ w) 0
        = 0xFFFFFFFFFFFFFFFF

/-! ### The emitters -/

/-- 43_emit R191, R192, R204: a TXT turn with `txt_valid = 1` sends the octet at the cursor, with `last` exactly on the final one,
advances the cursor, sets the done bit on the last, and enters DONE if MAP has finished; nothing else changes. With `txt_valid = 0` the
emitter has no step; that the turn is then a step that changes nothing is the model's choice (log entry 2). The HOST's record of what
it received is the model's own (log entry 3). That SIZE and PLCNT are within the capacities holds in every state a run reaches. -/
def Obligations.TxtTurnSendsTheOctetAtTheCursor : Prop :=
  ∀ (s : State) (rest : List Turn), s.sched = .txt :: rest →
    ((s.phase ≠ .emitting ∨ s.txtDone = true) → step s = .next { s with sched := rest })
    ∧ (∀ o : Byte, s.phase = .emitting → s.txtDone = false →
        s.size.toNat ≤ Config.params.fwCap → (s.plPresent = true → s.plCnt.toNat ≤ Config.params.plCap.toNat) →
        (txtSeq Config.params.hexCase s)[s.txtCur.toNat]? = some o →
        step s = .next { s with
          sched := rest
          txtCur := s.txtCur + 1
          txtOut := s.txtOut ++
            [{ octet := o, last := decide (s.txtCur.toNat + 1 = (txtSeq Config.params.hexCase s).length) }]
          txtDone := decide (s.txtCur.toNat + 1 = (txtSeq Config.params.hexCase s).length)
          phase := if s.txtCur.toNat + 1 = (txtSeq Config.params.hexCase s).length ∧ s.mapDone = true then .done
            else .emitting })

/-- 43_emit R191, R192, R216: the same of a MAP turn and the record at its cursor; that the turn is a step that changes nothing with
`map_valid = 0` is the model's choice (log entry 2), and the HOST's record is the model's own (log entry 3). -/
def Obligations.MapTurnSendsTheRecordAtTheCursor : Prop :=
  ∀ (s : State) (rest : List Turn), s.sched = .map :: rest →
    ((s.phase ≠ .emitting ∨ s.mapDone = true) → step s = .next { s with sched := rest })
    ∧ (∀ (a : Nat) (b : Byte), s.phase = .emitting → s.mapDone = false →
        s.size.toNat ≤ Config.params.fwCap → (s.plPresent = true → s.plCnt.toNat ≤ Config.params.plCap.toNat) →
        (mapSeq s)[s.mapCur.toNat]? = some (a, b) → a < 2 ^ 64 →
        step s = .next { s with
          sched := rest
          mapCur := s.mapCur + 1
          mapOut := s.mapOut ++
            [{ addr := BitVec.ofNat 64 a, data := b, last := decide (s.mapCur.toNat + 1 = (mapSeq s).length) }]
          mapDone := decide (s.mapCur.toNat + 1 = (mapSeq s).length)
          phase := if s.mapCur.toNat + 1 = (mapSeq s).length ∧ s.txtDone = true then .done else .emitting })

/-- 10_state R50, 20_memory R84: the two emitters are independent: a TXT turn and then a MAP turn leave what the two leave in the
other order. -/
def Obligations.EmittersCommute : Prop :=
  ∀ s t u : State, txtTurn Config.params s = .next t → mapTurn Config.params t = .next u →
    ∃ t', mapTurn Config.params s = .next t' ∧ txtTurn Config.params t' = .next u

/-- 43_emit R191 to R193, 70_reset R304, R310, R311: from a state of the invariant that is SEALED or DONE, an accepted EMIT followed
by any list of TXT and MAP turns long enough for both sequences ends in DONE, and the HOST has received exactly TxtSeq and MapSeq,
`last` on their final elements, whatever the interleaving. The turns and the HOST's record are the model's own (log entries 1 and 3);
that a turn beyond the end of its sequence is a step that changes nothing is the model's choice (log entry 2). -/
def Obligations.EmissionDrainsToBothArtifacts : Prop :=
  ∀ (s t : State) (turns : List Turn),
    Inv Config.params s → (s.phase = .sealed ∨ s.phase = .done) → exec (.emit 0) s = .next t →
    (∀ x ∈ turns, x = .txt ∨ x = .map) → (txtSeq Config.params.hexCase s).length ≤ turns.count .txt →
    (mapSeq s).length ≤ turns.count .map →
    ∃ u, Host.Core.run Sys2Proof.core turns.length { t with sched := turns } = .next u
      ∧ u.phase = .done
      ∧ u.txtOut = s.txtOut ++ txtTransfers (txtSeq Config.params.hexCase s)
      ∧ u.mapOut = s.mapOut ++ mapTransfers (mapSeq s)
      ∧ SameImage s u

/-! ### The read port and the levels -/

/-- 10_state R22, R37, R38, R39: the value of every index of the read port, and every field of STATUS, with the code PHASE shows there in
each of the five phases. -/
def Obligations.ReadPortValues : Prop :=
  ∀ (p : Params) (s : State),
    readPort p s 0x0 = statusWord s ∧ readPort p s 0x1 = s.target ∧ readPort p s 0x2 = s.boot
    ∧ readPort p s 0x3 = s.flash ∧ readPort p s 0x4 = s.pladdr ∧ readPort p s 0x5 = s.fwCnt
    ∧ readPort p s 0x6 = s.plCnt ∧ readPort p s 0x7 = s.size ∧ readPort p s 0x8 = s.acc
    ∧ readPort p s 0x9 = p.plCap ++ BitVec.ofNat 32 p.fwCap
    ∧ (∀ idx : BitVec 4, 0xA ≤ idx.toNat → readPort p s idx = 0)
    ∧ (statusWord s).extractLsb' 0 3 = s.phase.code
    ∧ Phase.code .load = 0 ∧ Phase.code .sealed = 1 ∧ Phase.code .emitting = 2 ∧ Phase.code .done = 3 ∧ Phase.code .error = 4
    ∧ (statusWord s).extractLsb' 3 1 = BitVec.ofBool s.plPresent
    ∧ (statusWord s).extractLsb' 4 1 = BitVec.ofBool s.txtDone
    ∧ (statusWord s).extractLsb' 5 1 = BitVec.ofBool s.mapDone
    ∧ (statusWord s).extractLsb' 6 2 = 0
    ∧ (statusWord s).extractLsb' 8 8 = s.errCode
    ∧ (statusWord s).extractLsb' 16 8 = s.errOpc
    ∧ (statusWord s).extractLsb' 24 40 = 0

/-- 10_state R38: CAPS holds FW_CAP in bits 31:0 and PL_CAP in bits 63:32, the same in every state. -/
def Obligations.CapsReportsTheCapacities : Prop :=
  ∀ (p : Params) (s t : State),
    ((readPort p s 0x9).extractLsb' 0 32).toNat = p.fwCap
    ∧ ((readPort p s 0x9).extractLsb' 32 32).toNat = p.plCap.toNat
    ∧ readPort p s 0x9 = readPort p t 0x9

/-- 10_state R47, 44_system R242: a read is answered in every phase with the value of its index and changes nothing of the block. The
HOST's record of the answer is the model's own (log entry 3). -/
def Obligations.ReadHasNoSideEffect : Prop :=
  ∀ (s : State) (idx : BitVec 4) (rest : List Turn), s.sched = .read idx :: rest →
    ∃ t, step s = .next t ∧ SameBlock s t
      ∧ t.rdOut = s.rdOut ++ [{ idx := idx, data := readPort Config.params s idx }]
      ∧ t.sched = rest ∧ t.cmdIn = s.cmdIn ∧ t.txtOut = s.txtOut ∧ t.mapOut = s.mapOut

/-- 10_state R51: `done` is 1 exactly in DONE and `err` exactly in ERROR. -/
def Obligations.LevelsFollowThePhase : Prop :=
  ∀ s : State, (doneLevel s = true ↔ s.phase = .done) ∧ (errLevel s = true ↔ s.phase = .error)

/-! ### The whole machine -/

/-- 30_encoding R94, R95, 20_memory R75: an ENGINE turn with a beat presented and `cmd_ready = 1` takes the oldest beat and executes it,
whatever beat it is, as one step: the command it decodes to; for a reserved opcode ILLEGAL_OPCODE, and in ERROR nothing but taking the
beat. Whose turn it is is the HOST's data (log entry 1). -/
def Obligations.StepRunsTheDecodedCommand : Prop :=
  ∀ (s : State) (w : Beat) (ws : List Beat) (rest : List Turn),
    s.sched = .engine :: rest → s.cmdIn = w :: ws → s.phase ≠ .emitting →
    step s = executeBeat w { s with sched := rest, cmdIn := ws }
    ∧ (∀ i : Instr, decode w = .ok i → step s = exec i { s with sched := rest, cmdIn := ws })
    ∧ (beatOpc w ∉ ([0x00, 0x01, 0x02, 0x03, 0x04, 0x10, 0x11, 0x20, 0x21, 0xFF] : List Byte) →
      (s.phase ≠ .error → step s = .next (raise .illegalOpcode (beatOpc w) { s with sched := rest, cmdIn := ws }))
      ∧ (s.phase = .error → step s = .next { s with sched := rest, cmdIn := ws }))

/-- 70_reset R303, 43_emit R191: with no turn left, and on an ENGINE turn with no beat presented, the block waits. That a wait is a
step that changes nothing is the model's choice (log entry 2). -/
def Obligations.BlockWaitsForTheHost : Prop :=
  ∀ s : State,
    (s.sched = [] → step s = .next s)
    ∧ (∀ rest, s.sched = .engine :: rest → s.cmdIn = [] → step s = .next { s with sched := rest })

/-- 10_state R23, 42_seal R170: once sealed, the image does not change until a reset: a step from SEALED, EMITTING, DONE or ERROR
leaves the eleven registers and buffers as they were, or is a reset of the block. -/
def Obligations.ImageIsFrozenUntilReset : Prop :=
  ∀ s t : State, s.phase ≠ .load → step s = .next t → SameImage s t ∨ AfterReset s t

/-- 10_state R22, 30_encoding R96, 43_emit R192, 60_exceptions R268: the phase changes only from LOAD to SEALED, from SEALED or DONE to
EMITTING, from EMITTING to DONE, from LOAD, SEALED or DONE to ERROR, and by a reset to LOAD. -/
def Obligations.PhaseTransitions : Prop :=
  ∀ s t : State, step s = .next t →
    t.phase = s.phase
    ∨ (s.phase = .load ∧ t.phase = .sealed)
    ∨ ((s.phase = .sealed ∨ s.phase = .done) ∧ t.phase = .emitting)
    ∨ (s.phase = .emitting ∧ t.phase = .done)
    ∨ ((s.phase = .load ∨ s.phase = .sealed ∨ s.phase = .done) ∧ t.phase = .error)
    ∨ AfterReset s t

/-- 10_state R45: the reset state meets the invariant of the block. -/
def Obligations.ResetMeetsInvariant : Prop := Inv Config.params State.reset

/-- 10_state R29 to R34, 42_seal R160 to R170, 43_emit R191, R192, 60_exceptions R264: every step keeps the invariant of the block:
the counters and buffers within their capacities and in canonical form, an error recorded exactly in ERROR, SIZE and ACC as reset or
SEAL left them, and the HOST holding exactly the elements before the cursors (its record is the model's own, log entry 3). -/
def Obligations.StepKeepsInvariant : Prop :=
  ∀ s t : State, Inv Config.params s → step s = .next t → Inv Config.params t

/-- 60_exceptions R260, 43_emit R190: from a state of the invariant every step answers a next state: the model's own stops (log
entries 6 and 7) are out of reach, and no command is left without a meaning. That a wait is a step is the model's choice (log entry
2). -/
def Obligations.InvariantStatesNeverStop : Prop :=
  ∀ s : State, Inv Config.params s → ∃ t, step s = .next t

/-- 10_state R42, R45: the unspecified contents of the buffers are unobservable: from a state of the invariant, a step with other
contents left by the last reset answers the same next state, with the same octets, records and read-port values, whatever those
contents are. That the count of resets selects them is the model's own form of it (log entry 5). -/
def Obligations.UnspecifiedBufferBytesAreUnobservable : Prop :=
  ∀ (s t : State) (n : Nat), Inv Config.params s → step s = .next t →
    ∃ m, step { s with resets := n } = .next { t with resets := m }
end

