-- ==== Sys2Proof/Laws/Buffer.lean ====
section
/-! SUPPORT. The laws of the buffers: reads after writes, and the canonical form kept by every buffer operation. -/

namespace Sys2Proof.Machine

/-- A byte found where it was written is the byte written. -/
@[simp] theorem bufFind_bufWrite_same (m : List Host.Cell) (k : Nat) (v : Byte) : bufFind (bufWrite m k v) k = some v := by
  induction m with
  | nil => simp [bufWrite, bufFind]
  | cons c rest ih =>
    obtain ⟨a, b⟩ := c
    simp only [bufWrite]
    split_ifs with h1 h2
    · simp [bufFind]
    · simp [bufFind]
    · simp only [bufFind, ih]
      rw [if_neg (by omega)]

/-- A write leaves every other byte as it was. -/
theorem bufFind_bufWrite_other (m : List Host.Cell) {k j : Nat} (v : Byte) (h : j ≠ k) :
    bufFind (bufWrite m k v) j = bufFind m j := by
  induction m with
  | nil => simp [bufWrite, bufFind, Ne.symm h]
  | cons c rest ih =>
    obtain ⟨a, b⟩ := c
    simp only [bufWrite]
    split_ifs with h1 h2
    · simp [bufFind, Ne.symm h]
    · subst h2
      simp [bufFind, Ne.symm h]
    · simp only [bufFind, ih]

/-- A byte read back where it was written is the byte written, whatever the unspecified contents. -/
@[simp] theorem bufRead_bufWrite_same (fill : Nat → Byte) (m : List Host.Cell) (k : Nat) (v : Byte) :
    bufRead fill (bufWrite m k v) k = v := by simp [bufRead]

/-- A write leaves every other byte reading as it did. -/
theorem bufRead_bufWrite_other (fill : Nat → Byte) (m : List Host.Cell) {k j : Nat} (v : Byte) (h : j ≠ k) :
    bufRead fill (bufWrite m k v) j = bufRead fill m j := by simp [bufRead, bufFind_bufWrite_other m v h]

/-- A byte that has been written reads the same whatever the unspecified contents (10_state R42). -/
theorem bufRead_written {m : List Host.Cell} {k : Nat} (h : (bufFind m k).isSome = true) (f g : Nat → Byte) :
    bufRead f m k = bufRead g m k := by
  obtain ⟨b, hb⟩ := Option.isSome_iff_exists.mp h
  simp [bufRead, hb]

/-- Writing an index in range keeps the canonical form, from any lower bound at or below the index. -/
theorem bufWfFrom_bufWrite {cap lo k : Nat} {m : List Host.Cell} (v : Byte) (hm : bufWfFrom cap lo m = true) (hlo : lo ≤ k)
    (hk : k < cap) : bufWfFrom cap lo (bufWrite m k v) = true := by
  induction m generalizing lo with
  | nil => simp [bufWrite, bufWfFrom, hlo, hk]
  | cons c rest ih =>
    obtain ⟨a, b⟩ := c
    simp only [bufWfFrom, Bool.and_eq_true, decide_eq_true_eq] at hm
    obtain ⟨⟨h1, h2⟩, h3⟩ := hm
    simp only [bufWrite]
    split_ifs with h4 h5
    · simp only [bufWfFrom, Bool.and_eq_true, decide_eq_true_eq]
      exact ⟨⟨hlo, hk⟩, ⟨by omega, h2⟩, h3⟩
    · subst h5
      simp only [bufWfFrom, Bool.and_eq_true, decide_eq_true_eq]
      exact ⟨⟨hlo, hk⟩, h3⟩
    · simp only [bufWfFrom, Bool.and_eq_true, decide_eq_true_eq]
      exact ⟨⟨h1, h2⟩, ih h3 (by omega)⟩

/-- Everything a store can do: it answers exactly for an index below the capacity, and then it is the write. -/
theorem bufStore_eq_some {cap : Nat} {m m' : List Host.Cell} {k : Nat} {v : Byte} :
    bufStore cap m k v = some m' ↔ k < cap ∧ m' = bufWrite m k v := by
  simp only [bufStore]
  split_ifs with h
  · simp [h, eq_comm]
  · simp [h]

/-- A store keeps the canonical form. -/
theorem bufStore_wf {cap : Nat} {m m' : List Host.Cell} {k : Nat} {v : Byte} (hm : bufWf cap m = true)
    (h : bufStore cap m k v = some m') : bufWf cap m' = true := by
  obtain ⟨hk, rfl⟩ := bufStore_eq_some.mp h
  exact bufWfFrom_bufWrite v hm (Nat.zero_le k) hk

/-- The padding write keeps the canonical form. -/
theorem padZeros_wf {cap : Nat} {m : List Host.Cell} {k n : Nat} (hm : bufWf cap m = true) (h : k + n ≤ cap) :
    bufWf cap (padZeros m k n) = true := by
  induction n generalizing m k with
  | zero => exact hm
  | succ n ih => exact ih (bufWfFrom_bufWrite _ hm (Nat.zero_le k) (by omega)) (by omega)

/-- What the padding write leaves: 0x00 in its range, and every other byte as it was. -/
theorem bufFind_padZeros (m : List Host.Cell) (k n j : Nat) :
    bufFind (padZeros m k n) j = if k ≤ j ∧ j < k + n then some 0x00 else bufFind m j := by
  induction n generalizing m k with
  | zero => rw [if_neg (by omega)]; rfl
  | succ n ih =>
    rw [padZeros, ih]
    by_cases hj : j = k
    · subst hj
      rw [if_neg (by omega), if_pos (by omega), bufFind_bufWrite_same]
    · rw [bufFind_bufWrite_other _ _ hj]
      by_cases hr : k + 1 ≤ j ∧ j < k + 1 + n
      · rw [if_pos hr, if_pos (by omega)]
      · rw [if_neg hr, if_neg (by omega)]

/-- What the padding write leaves to be read. -/
theorem bufRead_padZeros (fill : Nat → Byte) (m : List Host.Cell) (k n j : Nat) :
    bufRead fill (padZeros m k n) j = if k ≤ j ∧ j < k + n then 0x00 else bufRead fill m j := by
  rw [bufRead, bufFind_padZeros]
  split_ifs <;> rfl

/-- A range has as many bytes as asked for. -/
@[simp] theorem bufBytes_length (fill : Nat → Byte) (m : List Host.Cell) (k n : Nat) : (bufBytes fill m k n).length = n := by
  induction n generalizing k <;> simp [bufBytes, *]

/-- Byte `i` of a range is the byte read at its index. -/
theorem bufBytes_getElem? (fill : Nat → Byte) (m : List Host.Cell) (k n i : Nat) :
    (bufBytes fill m k n)[i]? = if i < n then some (bufRead fill m (k + i)) else none := by
  induction n generalizing k i with
  | zero => simp [bufBytes]
  | succ n ih =>
    cases i with
    | zero => simp [bufBytes]
    | succ i =>
      simp only [bufBytes, List.getElem?_cons_succ, ih, Nat.add_lt_add_iff_right]
      rw [show k + 1 + i = k + (i + 1) by omega]

/-- Two ranges are the same bytes exactly when they read the same at every index. -/
theorem bufBytes_congr {f g : Nat → Byte} {m m' : List Host.Cell} {k n : Nat}
    (h : ∀ i, i < n → bufRead f m (k + i) = bufRead g m' (k + i)) : bufBytes f m k n = bufBytes g m' k n := by
  apply List.ext_getElem?
  intro i
  rw [bufBytes_getElem?, bufBytes_getElem?]
  split_ifs with hi
  · rw [h i hi]
  · rfl

end Sys2Proof.Machine
end

