-- ==== Sys2Proof/Laws/Checksum.lean ====
section
/-! SUPPORT. The bytes of a word made of bytes, and how the words and the fold of the checksum split. -/

namespace Sys2Proof.Machine

/-- Byte `i` of a big-endian word is its byte `7 - i` from the left. -/
theorem byteOf_be64 (b0 b1 b2 b3 b4 b5 b6 b7 : Byte) (i : Nat) (h : i ≤ 7) :
    byteOf (be64 b0 b1 b2 b3 b4 b5 b6 b7) i = [b7, b6, b5, b4, b3, b2, b1, b0][i]'(by simp; omega) := by
  apply BitVec.eq_of_getLsbD_eq
  intro j hj
  interval_cases i <;> simp only [byteOf, BitVec.getLsbD_extractLsb', be64, BitVec.getLsbD_append, hj, decide_true, Bool.true_and] <;>
    interval_cases j <;> rfl

/-- A word is the big-endian word of its bytes. -/
theorem be64_byteOf (w : Word) :
    be64 (byteOf w 7) (byteOf w 6) (byteOf w 5) (byteOf w 4) (byteOf w 3) (byteOf w 2) (byteOf w 1) (byteOf w 0) = w := by
  apply BitVec.eq_of_getLsbD_eq
  intro j hj
  simp only [be64, BitVec.getLsbD_append, byteOf, BitVec.getLsbD_extractLsb']
  interval_cases j <;> rfl

/-- Induction over a list of whole words. -/
theorem wholeWords_induction {P : List Byte → Prop} (nil : P [])
    (cons : ∀ b0 b1 b2 b3 b4 b5 b6 b7 rest, rest.length % 8 = 0 → P rest → P (b0 :: b1 :: b2 :: b3 :: b4 :: b5 :: b6 :: b7 :: rest)) :
    ∀ bs : List Byte, bs.length % 8 = 0 → P bs
  | [], _ => nil
  | b0 :: b1 :: b2 :: b3 :: b4 :: b5 :: b6 :: b7 :: rest, h =>
    have hr : rest.length % 8 = 0 := by simp only [List.length_cons] at h; omega
    cons _ _ _ _ _ _ _ _ rest hr (wholeWords_induction nil cons rest hr)
  | [_], h | [_, _], h | [_, _, _], h | [_, _, _, _], h | [_, _, _, _, _], h | [_, _, _, _, _, _], h | [_, _, _, _, _, _, _], h =>
    by simp at h

/-- The words of two runs of whole words. -/
theorem textWords_append {f g : List Byte} (h : f.length % 8 = 0) : textWords (f ++ g) = textWords f ++ textWords g := by
  revert h
  revert f
  apply wholeWords_induction
  · simp [textWords]
  · intro b0 b1 b2 b3 b4 b5 b6 b7 rest _ ih
    simp [textWords, ih]

/-- There is one word for every 8 bytes. -/
theorem textWords_length {f : List Byte} (h : f.length % 8 = 0) : (textWords f).length = f.length / 8 := by
  revert h
  revert f
  apply wholeWords_induction
  · simp [textWords]
  · intro b0 b1 b2 b3 b4 b5 b6 b7 rest _ ih
    simp [textWords, ih]
    omega

/-- What the fold starts from passes through it. -/
theorem fold_xor (ws : List Word) (a x : Word) :
    ws.foldl (fun a w => a ^^^ reverseWordBytes w) (a ^^^ x) = ws.foldl (fun a w => a ^^^ reverseWordBytes w) a ^^^ x := by
  induction ws generalizing a with
  | nil => rfl
  | cons w ws ih =>
    simp only [List.foldl_cons]
    rw [← ih]
    congr 1
    rw [BitVec.xor_assoc, BitVec.xor_comm x, BitVec.xor_assoc]

end Sys2Proof.Machine
end

