-- ==== Sys2Proof/Laws/State.lean ====
section
/-! SUPPORT. What each named update of the state leaves in each field, so that no proof unfolds an update. -/

namespace Sys2Proof.Machine

/-! ### `raise` -/

@[simp] theorem raise_phase (e : ErrCause) (opc : Byte) (s : State) : (raise e opc s).phase = (.error) := rfl
@[simp] theorem raise_target (e : ErrCause) (opc : Byte) (s : State) : (raise e opc s).target = (s.target) := rfl
@[simp] theorem raise_boot (e : ErrCause) (opc : Byte) (s : State) : (raise e opc s).boot = (s.boot) := rfl
@[simp] theorem raise_flash (e : ErrCause) (opc : Byte) (s : State) : (raise e opc s).flash = (s.flash) := rfl
@[simp] theorem raise_pladdr (e : ErrCause) (opc : Byte) (s : State) : (raise e opc s).pladdr = (s.pladdr) := rfl
@[simp] theorem raise_plPresent (e : ErrCause) (opc : Byte) (s : State) : (raise e opc s).plPresent = (s.plPresent) := rfl
@[simp] theorem raise_fwCnt (e : ErrCause) (opc : Byte) (s : State) : (raise e opc s).fwCnt = (s.fwCnt) := rfl
@[simp] theorem raise_plCnt (e : ErrCause) (opc : Byte) (s : State) : (raise e opc s).plCnt = (s.plCnt) := rfl
@[simp] theorem raise_size (e : ErrCause) (opc : Byte) (s : State) : (raise e opc s).size = (s.size) := rfl
@[simp] theorem raise_acc (e : ErrCause) (opc : Byte) (s : State) : (raise e opc s).acc = (s.acc) := rfl
@[simp] theorem raise_errCode (e : ErrCause) (opc : Byte) (s : State) : (raise e opc s).errCode = (if s.errCode = 0 then errorCode e else s.errCode) := rfl
@[simp] theorem raise_errOpc (e : ErrCause) (opc : Byte) (s : State) : (raise e opc s).errOpc = (if s.errCode = 0 then opc else s.errOpc) := rfl
@[simp] theorem raise_txtCur (e : ErrCause) (opc : Byte) (s : State) : (raise e opc s).txtCur = (s.txtCur) := rfl
@[simp] theorem raise_mapCur (e : ErrCause) (opc : Byte) (s : State) : (raise e opc s).mapCur = (s.mapCur) := rfl
@[simp] theorem raise_txtDone (e : ErrCause) (opc : Byte) (s : State) : (raise e opc s).txtDone = (s.txtDone) := rfl
@[simp] theorem raise_mapDone (e : ErrCause) (opc : Byte) (s : State) : (raise e opc s).mapDone = (s.mapDone) := rfl
@[simp] theorem raise_fwBuf (e : ErrCause) (opc : Byte) (s : State) : (raise e opc s).fwBuf = (s.fwBuf) := rfl
@[simp] theorem raise_plBuf (e : ErrCause) (opc : Byte) (s : State) : (raise e opc s).plBuf = (s.plBuf) := rfl
@[simp] theorem raise_resets (e : ErrCause) (opc : Byte) (s : State) : (raise e opc s).resets = (s.resets) := rfl
@[simp] theorem raise_cmdIn (e : ErrCause) (opc : Byte) (s : State) : (raise e opc s).cmdIn = (s.cmdIn) := rfl
@[simp] theorem raise_sched (e : ErrCause) (opc : Byte) (s : State) : (raise e opc s).sched = (s.sched) := rfl
@[simp] theorem raise_txtOut (e : ErrCause) (opc : Byte) (s : State) : (raise e opc s).txtOut = (s.txtOut) := rfl
@[simp] theorem raise_mapOut (e : ErrCause) (opc : Byte) (s : State) : (raise e opc s).mapOut = (s.mapOut) := rfl
@[simp] theorem raise_rdOut (e : ErrCause) (opc : Byte) (s : State) : (raise e opc s).rdOut = (s.rdOut) := rfl

/-! ### `resetBlock` -/

@[simp] theorem resetBlock_phase (s : State) : (resetBlock s).phase = (State.reset.phase) := rfl
@[simp] theorem resetBlock_target (s : State) : (resetBlock s).target = (State.reset.target) := rfl
@[simp] theorem resetBlock_boot (s : State) : (resetBlock s).boot = (State.reset.boot) := rfl
@[simp] theorem resetBlock_flash (s : State) : (resetBlock s).flash = (State.reset.flash) := rfl
@[simp] theorem resetBlock_pladdr (s : State) : (resetBlock s).pladdr = (State.reset.pladdr) := rfl
@[simp] theorem resetBlock_plPresent (s : State) : (resetBlock s).plPresent = (State.reset.plPresent) := rfl
@[simp] theorem resetBlock_fwCnt (s : State) : (resetBlock s).fwCnt = (State.reset.fwCnt) := rfl
@[simp] theorem resetBlock_plCnt (s : State) : (resetBlock s).plCnt = (State.reset.plCnt) := rfl
@[simp] theorem resetBlock_size (s : State) : (resetBlock s).size = (State.reset.size) := rfl
@[simp] theorem resetBlock_acc (s : State) : (resetBlock s).acc = (State.reset.acc) := rfl
@[simp] theorem resetBlock_errCode (s : State) : (resetBlock s).errCode = (State.reset.errCode) := rfl
@[simp] theorem resetBlock_errOpc (s : State) : (resetBlock s).errOpc = (State.reset.errOpc) := rfl
@[simp] theorem resetBlock_txtCur (s : State) : (resetBlock s).txtCur = (State.reset.txtCur) := rfl
@[simp] theorem resetBlock_mapCur (s : State) : (resetBlock s).mapCur = (State.reset.mapCur) := rfl
@[simp] theorem resetBlock_txtDone (s : State) : (resetBlock s).txtDone = (State.reset.txtDone) := rfl
@[simp] theorem resetBlock_mapDone (s : State) : (resetBlock s).mapDone = (State.reset.mapDone) := rfl
@[simp] theorem resetBlock_fwBuf (s : State) : (resetBlock s).fwBuf = (State.reset.fwBuf) := rfl
@[simp] theorem resetBlock_plBuf (s : State) : (resetBlock s).plBuf = (State.reset.plBuf) := rfl
@[simp] theorem resetBlock_resets (s : State) : (resetBlock s).resets = (s.resets + 1) := rfl
@[simp] theorem resetBlock_cmdIn (s : State) : (resetBlock s).cmdIn = (s.cmdIn) := rfl
@[simp] theorem resetBlock_sched (s : State) : (resetBlock s).sched = (s.sched) := rfl
@[simp] theorem resetBlock_txtOut (s : State) : (resetBlock s).txtOut = (s.txtOut) := rfl
@[simp] theorem resetBlock_mapOut (s : State) : (resetBlock s).mapOut = (s.mapOut) := rfl
@[simp] theorem resetBlock_rdOut (s : State) : (resetBlock s).rdOut = (s.rdOut) := rfl

/-! ### `sealedState` -/

@[simp] theorem sealedState_phase (s : State) : (sealedState s).phase = (.sealed) := rfl
@[simp] theorem sealedState_target (s : State) : (sealedState s).target = (s.target) := rfl
@[simp] theorem sealedState_boot (s : State) : (sealedState s).boot = (s.boot) := rfl
@[simp] theorem sealedState_flash (s : State) : (sealedState s).flash = (s.flash) := rfl
@[simp] theorem sealedState_pladdr (s : State) : (sealedState s).pladdr = (s.pladdr) := rfl
@[simp] theorem sealedState_plPresent (s : State) : (sealedState s).plPresent = (s.plPresent) := rfl
@[simp] theorem sealedState_fwCnt (s : State) : (sealedState s).fwCnt = (s.fwCnt) := rfl
@[simp] theorem sealedState_plCnt (s : State) : (sealedState s).plCnt = (s.plCnt) := rfl
@[simp] theorem sealedState_size (s : State) : (sealedState s).size = (BitVec.ofNat 64 (padLength s.fwCnt.toNat)) := rfl
@[simp] theorem sealedState_acc (s : State) : (sealedState s).acc = (checksum s.target s.boot (BitVec.ofNat 64 (padLength s.fwCnt.toNat)) (paddedFirmware s)) := rfl
@[simp] theorem sealedState_errCode (s : State) : (sealedState s).errCode = (s.errCode) := rfl
@[simp] theorem sealedState_errOpc (s : State) : (sealedState s).errOpc = (s.errOpc) := rfl
@[simp] theorem sealedState_txtCur (s : State) : (sealedState s).txtCur = (s.txtCur) := rfl
@[simp] theorem sealedState_mapCur (s : State) : (sealedState s).mapCur = (s.mapCur) := rfl
@[simp] theorem sealedState_txtDone (s : State) : (sealedState s).txtDone = (s.txtDone) := rfl
@[simp] theorem sealedState_mapDone (s : State) : (sealedState s).mapDone = (s.mapDone) := rfl
@[simp] theorem sealedState_fwBuf (s : State) : (sealedState s).fwBuf = (paddedBuf s) := rfl
@[simp] theorem sealedState_plBuf (s : State) : (sealedState s).plBuf = (s.plBuf) := rfl
@[simp] theorem sealedState_resets (s : State) : (sealedState s).resets = (s.resets) := rfl
@[simp] theorem sealedState_cmdIn (s : State) : (sealedState s).cmdIn = (s.cmdIn) := rfl
@[simp] theorem sealedState_sched (s : State) : (sealedState s).sched = (s.sched) := rfl
@[simp] theorem sealedState_txtOut (s : State) : (sealedState s).txtOut = (s.txtOut) := rfl
@[simp] theorem sealedState_mapOut (s : State) : (sealedState s).mapOut = (s.mapOut) := rfl
@[simp] theorem sealedState_rdOut (s : State) : (sealedState s).rdOut = (s.rdOut) := rfl

/-! ### `startEmission` -/

@[simp] theorem startEmission_phase (s : State) : (startEmission s).phase = (.emitting) := rfl
@[simp] theorem startEmission_target (s : State) : (startEmission s).target = (s.target) := rfl
@[simp] theorem startEmission_boot (s : State) : (startEmission s).boot = (s.boot) := rfl
@[simp] theorem startEmission_flash (s : State) : (startEmission s).flash = (s.flash) := rfl
@[simp] theorem startEmission_pladdr (s : State) : (startEmission s).pladdr = (s.pladdr) := rfl
@[simp] theorem startEmission_plPresent (s : State) : (startEmission s).plPresent = (s.plPresent) := rfl
@[simp] theorem startEmission_fwCnt (s : State) : (startEmission s).fwCnt = (s.fwCnt) := rfl
@[simp] theorem startEmission_plCnt (s : State) : (startEmission s).plCnt = (s.plCnt) := rfl
@[simp] theorem startEmission_size (s : State) : (startEmission s).size = (s.size) := rfl
@[simp] theorem startEmission_acc (s : State) : (startEmission s).acc = (s.acc) := rfl
@[simp] theorem startEmission_errCode (s : State) : (startEmission s).errCode = (s.errCode) := rfl
@[simp] theorem startEmission_errOpc (s : State) : (startEmission s).errOpc = (s.errOpc) := rfl
@[simp] theorem startEmission_txtCur (s : State) : (startEmission s).txtCur = (0) := rfl
@[simp] theorem startEmission_mapCur (s : State) : (startEmission s).mapCur = (0) := rfl
@[simp] theorem startEmission_txtDone (s : State) : (startEmission s).txtDone = (false) := rfl
@[simp] theorem startEmission_mapDone (s : State) : (startEmission s).mapDone = (false) := rfl
@[simp] theorem startEmission_fwBuf (s : State) : (startEmission s).fwBuf = (s.fwBuf) := rfl
@[simp] theorem startEmission_plBuf (s : State) : (startEmission s).plBuf = (s.plBuf) := rfl
@[simp] theorem startEmission_resets (s : State) : (startEmission s).resets = (s.resets) := rfl
@[simp] theorem startEmission_cmdIn (s : State) : (startEmission s).cmdIn = (s.cmdIn) := rfl
@[simp] theorem startEmission_sched (s : State) : (startEmission s).sched = (s.sched) := rfl
@[simp] theorem startEmission_txtOut (s : State) : (startEmission s).txtOut = (s.txtOut) := rfl
@[simp] theorem startEmission_mapOut (s : State) : (startEmission s).mapOut = (s.mapOut) := rfl
@[simp] theorem startEmission_rdOut (s : State) : (startEmission s).rdOut = (s.rdOut) := rfl

/-! ### `closeEmission` -/

@[simp] theorem closeEmission_phase (s : State) : (closeEmission s).phase = (if s.txtDone && s.mapDone then .done else s.phase) := rfl
@[simp] theorem closeEmission_target (s : State) : (closeEmission s).target = (s.target) := rfl
@[simp] theorem closeEmission_boot (s : State) : (closeEmission s).boot = (s.boot) := rfl
@[simp] theorem closeEmission_flash (s : State) : (closeEmission s).flash = (s.flash) := rfl
@[simp] theorem closeEmission_pladdr (s : State) : (closeEmission s).pladdr = (s.pladdr) := rfl
@[simp] theorem closeEmission_plPresent (s : State) : (closeEmission s).plPresent = (s.plPresent) := rfl
@[simp] theorem closeEmission_fwCnt (s : State) : (closeEmission s).fwCnt = (s.fwCnt) := rfl
@[simp] theorem closeEmission_plCnt (s : State) : (closeEmission s).plCnt = (s.plCnt) := rfl
@[simp] theorem closeEmission_size (s : State) : (closeEmission s).size = (s.size) := rfl
@[simp] theorem closeEmission_acc (s : State) : (closeEmission s).acc = (s.acc) := rfl
@[simp] theorem closeEmission_errCode (s : State) : (closeEmission s).errCode = (s.errCode) := rfl
@[simp] theorem closeEmission_errOpc (s : State) : (closeEmission s).errOpc = (s.errOpc) := rfl
@[simp] theorem closeEmission_txtCur (s : State) : (closeEmission s).txtCur = (s.txtCur) := rfl
@[simp] theorem closeEmission_mapCur (s : State) : (closeEmission s).mapCur = (s.mapCur) := rfl
@[simp] theorem closeEmission_txtDone (s : State) : (closeEmission s).txtDone = (s.txtDone) := rfl
@[simp] theorem closeEmission_mapDone (s : State) : (closeEmission s).mapDone = (s.mapDone) := rfl
@[simp] theorem closeEmission_fwBuf (s : State) : (closeEmission s).fwBuf = (s.fwBuf) := rfl
@[simp] theorem closeEmission_plBuf (s : State) : (closeEmission s).plBuf = (s.plBuf) := rfl
@[simp] theorem closeEmission_resets (s : State) : (closeEmission s).resets = (s.resets) := rfl
@[simp] theorem closeEmission_cmdIn (s : State) : (closeEmission s).cmdIn = (s.cmdIn) := rfl
@[simp] theorem closeEmission_sched (s : State) : (closeEmission s).sched = (s.sched) := rfl
@[simp] theorem closeEmission_txtOut (s : State) : (closeEmission s).txtOut = (s.txtOut) := rfl
@[simp] theorem closeEmission_mapOut (s : State) : (closeEmission s).mapOut = (s.mapOut) := rfl
@[simp] theorem closeEmission_rdOut (s : State) : (closeEmission s).rdOut = (s.rdOut) := rfl

/-! ### `sendTxt` -/

@[simp] theorem sendTxt_phase (x : TxtXfer) (s : State) : (sendTxt x s).phase = (if (s.txtDone || x.last) && s.mapDone then .done else s.phase) := rfl
@[simp] theorem sendTxt_target (x : TxtXfer) (s : State) : (sendTxt x s).target = (s.target) := rfl
@[simp] theorem sendTxt_boot (x : TxtXfer) (s : State) : (sendTxt x s).boot = (s.boot) := rfl
@[simp] theorem sendTxt_flash (x : TxtXfer) (s : State) : (sendTxt x s).flash = (s.flash) := rfl
@[simp] theorem sendTxt_pladdr (x : TxtXfer) (s : State) : (sendTxt x s).pladdr = (s.pladdr) := rfl
@[simp] theorem sendTxt_plPresent (x : TxtXfer) (s : State) : (sendTxt x s).plPresent = (s.plPresent) := rfl
@[simp] theorem sendTxt_fwCnt (x : TxtXfer) (s : State) : (sendTxt x s).fwCnt = (s.fwCnt) := rfl
@[simp] theorem sendTxt_plCnt (x : TxtXfer) (s : State) : (sendTxt x s).plCnt = (s.plCnt) := rfl
@[simp] theorem sendTxt_size (x : TxtXfer) (s : State) : (sendTxt x s).size = (s.size) := rfl
@[simp] theorem sendTxt_acc (x : TxtXfer) (s : State) : (sendTxt x s).acc = (s.acc) := rfl
@[simp] theorem sendTxt_errCode (x : TxtXfer) (s : State) : (sendTxt x s).errCode = (s.errCode) := rfl
@[simp] theorem sendTxt_errOpc (x : TxtXfer) (s : State) : (sendTxt x s).errOpc = (s.errOpc) := rfl
@[simp] theorem sendTxt_txtCur (x : TxtXfer) (s : State) : (sendTxt x s).txtCur = (s.txtCur + 1) := rfl
@[simp] theorem sendTxt_mapCur (x : TxtXfer) (s : State) : (sendTxt x s).mapCur = (s.mapCur) := rfl
@[simp] theorem sendTxt_txtDone (x : TxtXfer) (s : State) : (sendTxt x s).txtDone = ((s.txtDone || x.last)) := rfl
@[simp] theorem sendTxt_mapDone (x : TxtXfer) (s : State) : (sendTxt x s).mapDone = (s.mapDone) := rfl
@[simp] theorem sendTxt_fwBuf (x : TxtXfer) (s : State) : (sendTxt x s).fwBuf = (s.fwBuf) := rfl
@[simp] theorem sendTxt_plBuf (x : TxtXfer) (s : State) : (sendTxt x s).plBuf = (s.plBuf) := rfl
@[simp] theorem sendTxt_resets (x : TxtXfer) (s : State) : (sendTxt x s).resets = (s.resets) := rfl
@[simp] theorem sendTxt_cmdIn (x : TxtXfer) (s : State) : (sendTxt x s).cmdIn = (s.cmdIn) := rfl
@[simp] theorem sendTxt_sched (x : TxtXfer) (s : State) : (sendTxt x s).sched = (s.sched) := rfl
@[simp] theorem sendTxt_txtOut (x : TxtXfer) (s : State) : (sendTxt x s).txtOut = (s.txtOut ++ [x]) := rfl
@[simp] theorem sendTxt_mapOut (x : TxtXfer) (s : State) : (sendTxt x s).mapOut = (s.mapOut) := rfl
@[simp] theorem sendTxt_rdOut (x : TxtXfer) (s : State) : (sendTxt x s).rdOut = (s.rdOut) := rfl

/-! ### `sendMap` -/

@[simp] theorem sendMap_phase (x : MapXfer) (s : State) : (sendMap x s).phase = (if s.txtDone && (s.mapDone || x.last) then .done else s.phase) := rfl
@[simp] theorem sendMap_target (x : MapXfer) (s : State) : (sendMap x s).target = (s.target) := rfl
@[simp] theorem sendMap_boot (x : MapXfer) (s : State) : (sendMap x s).boot = (s.boot) := rfl
@[simp] theorem sendMap_flash (x : MapXfer) (s : State) : (sendMap x s).flash = (s.flash) := rfl
@[simp] theorem sendMap_pladdr (x : MapXfer) (s : State) : (sendMap x s).pladdr = (s.pladdr) := rfl
@[simp] theorem sendMap_plPresent (x : MapXfer) (s : State) : (sendMap x s).plPresent = (s.plPresent) := rfl
@[simp] theorem sendMap_fwCnt (x : MapXfer) (s : State) : (sendMap x s).fwCnt = (s.fwCnt) := rfl
@[simp] theorem sendMap_plCnt (x : MapXfer) (s : State) : (sendMap x s).plCnt = (s.plCnt) := rfl
@[simp] theorem sendMap_size (x : MapXfer) (s : State) : (sendMap x s).size = (s.size) := rfl
@[simp] theorem sendMap_acc (x : MapXfer) (s : State) : (sendMap x s).acc = (s.acc) := rfl
@[simp] theorem sendMap_errCode (x : MapXfer) (s : State) : (sendMap x s).errCode = (s.errCode) := rfl
@[simp] theorem sendMap_errOpc (x : MapXfer) (s : State) : (sendMap x s).errOpc = (s.errOpc) := rfl
@[simp] theorem sendMap_txtCur (x : MapXfer) (s : State) : (sendMap x s).txtCur = (s.txtCur) := rfl
@[simp] theorem sendMap_mapCur (x : MapXfer) (s : State) : (sendMap x s).mapCur = (s.mapCur + 1) := rfl
@[simp] theorem sendMap_txtDone (x : MapXfer) (s : State) : (sendMap x s).txtDone = (s.txtDone) := rfl
@[simp] theorem sendMap_mapDone (x : MapXfer) (s : State) : (sendMap x s).mapDone = ((s.mapDone || x.last)) := rfl
@[simp] theorem sendMap_fwBuf (x : MapXfer) (s : State) : (sendMap x s).fwBuf = (s.fwBuf) := rfl
@[simp] theorem sendMap_plBuf (x : MapXfer) (s : State) : (sendMap x s).plBuf = (s.plBuf) := rfl
@[simp] theorem sendMap_resets (x : MapXfer) (s : State) : (sendMap x s).resets = (s.resets) := rfl
@[simp] theorem sendMap_cmdIn (x : MapXfer) (s : State) : (sendMap x s).cmdIn = (s.cmdIn) := rfl
@[simp] theorem sendMap_sched (x : MapXfer) (s : State) : (sendMap x s).sched = (s.sched) := rfl
@[simp] theorem sendMap_txtOut (x : MapXfer) (s : State) : (sendMap x s).txtOut = (s.txtOut) := rfl
@[simp] theorem sendMap_mapOut (x : MapXfer) (s : State) : (sendMap x s).mapOut = (s.mapOut ++ [x]) := rfl
@[simp] theorem sendMap_rdOut (x : MapXfer) (s : State) : (sendMap x s).rdOut = (s.rdOut) := rfl

/-! ### `presentBeat` -/

@[simp] theorem presentBeat_phase (w : Beat) (s : State) : (presentBeat w s).phase = (s.phase) := rfl
@[simp] theorem presentBeat_target (w : Beat) (s : State) : (presentBeat w s).target = (s.target) := rfl
@[simp] theorem presentBeat_boot (w : Beat) (s : State) : (presentBeat w s).boot = (s.boot) := rfl
@[simp] theorem presentBeat_flash (w : Beat) (s : State) : (presentBeat w s).flash = (s.flash) := rfl
@[simp] theorem presentBeat_pladdr (w : Beat) (s : State) : (presentBeat w s).pladdr = (s.pladdr) := rfl
@[simp] theorem presentBeat_plPresent (w : Beat) (s : State) : (presentBeat w s).plPresent = (s.plPresent) := rfl
@[simp] theorem presentBeat_fwCnt (w : Beat) (s : State) : (presentBeat w s).fwCnt = (s.fwCnt) := rfl
@[simp] theorem presentBeat_plCnt (w : Beat) (s : State) : (presentBeat w s).plCnt = (s.plCnt) := rfl
@[simp] theorem presentBeat_size (w : Beat) (s : State) : (presentBeat w s).size = (s.size) := rfl
@[simp] theorem presentBeat_acc (w : Beat) (s : State) : (presentBeat w s).acc = (s.acc) := rfl
@[simp] theorem presentBeat_errCode (w : Beat) (s : State) : (presentBeat w s).errCode = (s.errCode) := rfl
@[simp] theorem presentBeat_errOpc (w : Beat) (s : State) : (presentBeat w s).errOpc = (s.errOpc) := rfl
@[simp] theorem presentBeat_txtCur (w : Beat) (s : State) : (presentBeat w s).txtCur = (s.txtCur) := rfl
@[simp] theorem presentBeat_mapCur (w : Beat) (s : State) : (presentBeat w s).mapCur = (s.mapCur) := rfl
@[simp] theorem presentBeat_txtDone (w : Beat) (s : State) : (presentBeat w s).txtDone = (s.txtDone) := rfl
@[simp] theorem presentBeat_mapDone (w : Beat) (s : State) : (presentBeat w s).mapDone = (s.mapDone) := rfl
@[simp] theorem presentBeat_fwBuf (w : Beat) (s : State) : (presentBeat w s).fwBuf = (s.fwBuf) := rfl
@[simp] theorem presentBeat_plBuf (w : Beat) (s : State) : (presentBeat w s).plBuf = (s.plBuf) := rfl
@[simp] theorem presentBeat_resets (w : Beat) (s : State) : (presentBeat w s).resets = (s.resets) := rfl
@[simp] theorem presentBeat_cmdIn (w : Beat) (s : State) : (presentBeat w s).cmdIn = (w :: s.cmdIn) := rfl
@[simp] theorem presentBeat_sched (w : Beat) (s : State) : (presentBeat w s).sched = (.engine :: s.sched) := rfl
@[simp] theorem presentBeat_txtOut (w : Beat) (s : State) : (presentBeat w s).txtOut = (s.txtOut) := rfl
@[simp] theorem presentBeat_mapOut (w : Beat) (s : State) : (presentBeat w s).mapOut = (s.mapOut) := rfl
@[simp] theorem presentBeat_rdOut (w : Beat) (s : State) : (presentBeat w s).rdOut = (s.rdOut) := rfl

end Sys2Proof.Machine
end

