-- ==== Sys2Proof/Laws/Ops.lean ====
section
/-! SUPPORT. Everything each shared operation can do, said once: the checks of a beat, the rules of the absorption commands and
of SEAL, the emitters, the turns and the step. -/

namespace Sys2Proof.Machine

/-- Everything `perform` can answer (30_encoding R95): held, discarded, one of two errors, or the command's own rule. -/
theorem perform_cases (i : Instr) (s : State) (body : Result) :
    (s.phase = .emitting ∧ perform i s body = .next s) ∨
    (s.phase = .error ∧ isReset i = false ∧ perform i s body = .next s) ∨
    (s.phase ≠ .emitting ∧ s.phase ≠ .error ∧ perform i s body = .next (raise .sequence i.opcode s)) ∨
    (s.phase ≠ .emitting ∧ s.phase ≠ .error ∧ perform i s body = .next (raise .reservedOperand i.opcode s)) ∨
    (s.phase ≠ .emitting ∧ (s.phase = .error → isReset i = true) ∧
      (s.phase ≠ .error → allowedIn i s.phase = true ∧ presenceOk i s = true ∧ operandOk (formOf i) i.data = true) ∧
      perform i s body = body) := by
  cases h : s.phase with
  | emitting => simp [perform, h]
  | error => cases hr : isReset i <;> simp [perform, h, hr]
  | _ =>
    simp only [perform, h]
    split_ifs <;> simp_all

/-- A permitted command with a good operand runs its own rule. -/
theorem perform_body {i : Instr} {s : State} {body : Result} (h1 : s.phase ≠ .emitting) (h2 : s.phase ≠ .error)
    (h3 : allowedIn i s.phase = true) (h4 : presenceOk i s = true) (h5 : operandOk (formOf i) i.data = true) :
    perform i s body = body := by
  rcases perform_cases i s body with h | h | h | h | h
  · exact absurd h.1 h1
  · exact absurd h.1 h2
  all_goals
    revert h
    unfold perform
    cases hp : s.phase <;> simp_all

/-- Everything FW_BYTE's rule can answer (41_absorb R141). -/
theorem absorbFw_cases (p : Params) (b : Byte) (s : State) :
    (s.fwCnt.toNat = p.fwCap ∧ absorbFw p b s = .next (raise .fwOverflow 0x10 s)) ∨
    (p.fwCap < s.fwCnt.toNat ∧ absorbFw p b s = .fault .bufferIndex) ∨
    (s.fwCnt.toNat < p.fwCap ∧
      absorbFw p b s = .next { s with fwBuf := bufWrite s.fwBuf s.fwCnt.toNat b, fwCnt := s.fwCnt + 1 }) := by
  simp only [absorbFw, bufStore]
  split_ifs with h1 h2
  · exact .inl ⟨h1, rfl⟩
  · exact .inr (.inr ⟨h2, rfl⟩)
  · exact .inr (.inl ⟨by omega, rfl⟩)

/-- Everything PL_BYTE's rule can answer (41_absorb R142). -/
theorem absorbPl_cases (p : Params) (b : Byte) (s : State) :
    (s.plCnt.toNat = p.plCap.toNat ∧ absorbPl p b s = .next (raise .plOverflow 0x11 s)) ∨
    (p.plCap.toNat < s.plCnt.toNat ∧ absorbPl p b s = .fault .bufferIndex) ∨
    (s.plCnt.toNat < p.plCap.toNat ∧
      absorbPl p b s = .next { s with plBuf := bufWrite s.plBuf s.plCnt.toNat b, plCnt := s.plCnt + 1 }) := by
  simp only [absorbPl, bufStore]
  split_ifs with h1 h2
  · exact .inl ⟨h1, rfl⟩
  · exact .inr (.inr ⟨h2, rfl⟩)
  · exact .inr (.inl ⟨by omega, rfl⟩)

/-- Everything SEAL's rule can answer (42_seal R160): FW_EMPTY, ADDR_RANGE, a stop for a state past its buffer, or the image. -/
theorem sealImage_cases (p : Params) (s : State) :
    (s.fwCnt.toNat = 0 ∧ sealImage p s = .next (raise .fwEmpty 0x20 s)) ∨
    (s.fwCnt.toNat ≠ 0 ∧ inRange s.flash (padLength s.fwCnt.toNat) s.plPresent s.pladdr s.plCnt = false ∧
      sealImage p s = .next (raise .addrRange 0x20 s)) ∨
    (p.fwCap < padLength s.fwCnt.toNat ∧ sealImage p s = .fault .bufferIndex) ∨
    (s.fwCnt.toNat ≠ 0 ∧ inRange s.flash (padLength s.fwCnt.toNat) s.plPresent s.pladdr s.plCnt = true ∧
      padLength s.fwCnt.toNat ≤ p.fwCap ∧ sealImage p s = .next (sealedState s)) := by
  unfold sealImage
  split_ifs with h0 hr hc
  · exact .inl ⟨h0, rfl⟩
  · exact .inr (.inl ⟨h0, hr, rfl⟩)
  · exact .inr (.inr (.inl ⟨hc, rfl⟩))
  · exact .inr (.inr (.inr ⟨h0, by simpa using hr, by omega, rfl⟩))

/-- Everything a TXT turn can answer (43_emit R191). -/
theorem txtTurn_cases (p : Params) (s : State) :
    (txtValid s = false ∧ txtTurn p s = .next s) ∨
    (txtValid s = true ∧ ∃ f, txtOffer p s = .error f ∧ txtTurn p s = .fault f) ∨
    (txtValid s = true ∧ ∃ x, txtOffer p s = .ok x ∧ txtTurn p s = .next (sendTxt x s)) := by
  unfold txtTurn
  cases txtValid s <;> simp
  cases txtOffer p s <;> simp

/-- Everything a MAP turn can answer (43_emit R191). -/
theorem mapTurn_cases (p : Params) (s : State) :
    (mapValid s = false ∧ mapTurn p s = .next s) ∨
    (mapValid s = true ∧ ∃ f, mapOffer p s = .error f ∧ mapTurn p s = .fault f) ∨
    (mapValid s = true ∧ ∃ x, mapOffer p s = .ok x ∧ mapTurn p s = .next (sendMap x s)) := by
  unfold mapTurn
  cases mapValid s <;> simp
  cases mapOffer p s <;> simp

/-- The octet the TXT emitter offers is the one at its cursor. -/
theorem txtOffer_eq_ok {p : Params} {s : State} {x : TxtXfer} :
    txtOffer p s = .ok x ↔ imageInBuffers p s = true ∧ (txtSeq p.hexCase s)[s.txtCur.toNat]? = some x.octet ∧
      x.last = decide (s.txtCur.toNat + 1 = (txtSeq p.hexCase s).length) := by
  unfold txtOffer elementAt
  cases imageInBuffers p s with
  | false => simp
  | true =>
    cases h : (txtSeq p.hexCase s)[s.txtCur.toNat]? with
    | none => simp
    | some o =>
      obtain ⟨xo, xl⟩ := x
      simp [eq_comm]

/-- The record the MAP emitter offers is the one at its cursor, at an address of the map space. -/
theorem mapOffer_eq_ok {p : Params} {s : State} {x : MapXfer} :
    mapOffer p s = .ok x ↔ imageInBuffers p s = true ∧ ∃ r, (mapSeq s)[s.mapCur.toNat]? = some r ∧ r.1 < 2 ^ 64 ∧
      x = { addr := BitVec.ofNat 64 r.1, data := r.2, last := decide (s.mapCur.toNat + 1 = (mapSeq s).length) } := by
  unfold mapOffer elementAt
  cases imageInBuffers p s with
  | false => simp
  | true =>
    cases h : (mapSeq s)[s.mapCur.toNat]? with
    | none => simp
    | some r =>
      by_cases hr : r.1 < 2 ^ 64
      · simp only [if_pos hr]
        constructor
        · intro hx
          cases hx
          exact ⟨trivial, r, rfl, hr, rfl⟩
        · rintro ⟨-, r', h', -, rfl⟩
          cases h'
          rfl
      · simp only [if_neg hr]
        constructor
        · intro hx
          cases hx
        · rintro ⟨-, r', h', hr', -⟩
          cases h'
          exact absurd hr' hr

/-- Every buffer index of an image exists once its sizes are within the capacities. -/
theorem imageInBuffers_iff (p : Params) (s : State) :
    imageInBuffers p s = true ↔ s.size.toNat ≤ p.fwCap ∧ (s.plPresent = true → s.plCnt.toNat ≤ p.plCap.toNat) := by
  unfold imageInBuffers
  cases s.plPresent <;> simp

/-- Everything a beat with a reserved opcode can do (30_encoding R94). -/
theorem reservedBeat_cases (opc : Byte) (s : State) :
    ((s.phase = .emitting ∨ s.phase = .error) ∧ reservedBeat opc s = .next s) ∨
    (s.phase ≠ .emitting ∧ s.phase ≠ .error ∧ reservedBeat opc s = .next (raise .illegalOpcode opc s)) := by
  unfold reservedBeat
  cases s.phase <;> simp

/-- Everything an ENGINE turn can do (10_state R46). -/
theorem engineTurn_cases (s : State) :
    ((s.phase = .emitting ∨ s.cmdIn = []) ∧ engineTurn s = .next s) ∨
    (s.phase ≠ .emitting ∧ ∃ w rest, s.cmdIn = w :: rest ∧ engineTurn s = executeBeat w { s with cmdIn := rest }) := by
  unfold engineTurn cmdReady
  by_cases h : s.phase = .emitting
  · simp [h]
  · cases hc : s.cmdIn <;> simp [h]

/-- Everything a step can do: wait, or one of the five turns. -/
theorem step_cases (s : State) :
    (s.sched = [] ∧ step s = .next s) ∨
    (∃ rest, s.sched = .engine :: rest ∧ step s = engineTurn { s with sched := rest }) ∨
    (∃ rest, s.sched = .txt :: rest ∧ step s = txtTurn Config.params { s with sched := rest }) ∨
    (∃ rest, s.sched = .map :: rest ∧ step s = mapTurn Config.params { s with sched := rest }) ∨
    (∃ idx rest, s.sched = .read idx :: rest ∧ step s = readTurn Config.params idx { s with sched := rest }) ∨
    (∃ lost rest, s.sched = .rst lost :: rest ∧ step s = rstTurn lost { s with sched := rest }) := by
  unfold step nextTurn
  cases h : s.sched with
  | nil => simp
  | cons t rest => cases t <;> simp [takeTurn]

end Sys2Proof.Machine
end

