-- ==== Sys2Proof/Laws/Exec.lean ====
section
/-! SUPPORT. Everything a command, a beat and a step can answer, said once as a relation: proofs about every command or every step take
its cases and never unfold a meaning. -/

namespace Sys2Proof.Machine

/-- Everything the command `i` can answer in state `s`. -/
inductive ExecCase (i : Instr) (s : State) : Result → Prop
  /-- Held in EMITTING, discarded in ERROR, or NOP. -/
  | same : ExecCase i s (.next s)
  /-- One error, with the command's opcode. -/
  | error (e : ErrCause) (h1 : s.phase ≠ .emitting) (h2 : s.phase ≠ .error) : ExecCase i s (.next (raise e i.opcode s))
  | setTarget (v : Word) (h : s.phase = .load) : ExecCase i s (.next { s with target := v })
  | setBoot (v : Word) (h : s.phase = .load) : ExecCase i s (.next { s with boot := v })
  | setFlash (v : Word) (h : s.phase = .load) : ExecCase i s (.next { s with flash := v })
  | setPladdr (v : Word) (h : s.phase = .load) : ExecCase i s (.next { s with pladdr := v, plPresent := true })
  | fwByte (b : Byte) (h : s.phase = .load) (hc : s.fwCnt.toNat < Config.params.fwCap) :
      ExecCase i s (.next { s with fwBuf := bufWrite s.fwBuf s.fwCnt.toNat b, fwCnt := s.fwCnt + 1 })
  | plByte (b : Byte) (h : s.phase = .load) (hp : s.plPresent = true) (hc : s.plCnt.toNat < Config.params.plCap.toNat) :
      ExecCase i s (.next { s with plBuf := bufWrite s.plBuf s.plCnt.toNat b, plCnt := s.plCnt + 1 })
  | sealImage (h : s.phase = .load) (hn : s.fwCnt.toNat ≠ 0)
      (hr : inRange s.flash (padLength s.fwCnt.toNat) s.plPresent s.pladdr s.plCnt = true)
      (hc : padLength s.fwCnt.toNat ≤ Config.params.fwCap) : ExecCase i s (.next (sealedState s))
  | emit (h : s.phase = .sealed ∨ s.phase = .done) : ExecCase i s (.next (startEmission s))
  | reset (h : s.phase ≠ .emitting) : ExecCase i s (.next (resetBlock s))
  /-- A counter past its capacity: only in states no run from reset reaches. -/
  | stopIndex (h : s.phase = .load)
      (hc : Config.params.fwCap < padLength s.fwCnt.toNat ∨ Config.params.plCap.toNat < s.plCnt.toNat) :
      ExecCase i s (.fault .bufferIndex)

/-- What the checks of a beat leave, if the command's own rule has one of the cases in the phases the table allows. -/
theorem perform_execCase {i : Instr} {s : State} {body : Result}
    (h : s.phase ≠ .emitting → (s.phase = .error → isReset i = true) →
      (s.phase ≠ .error → allowedIn i s.phase = true ∧ presenceOk i s = true) → ExecCase i s body) :
    ExecCase i s (perform i s body) := by
  rcases perform_cases i s body with ⟨-, e⟩ | ⟨-, -, e⟩ | ⟨h1, h2, e⟩ | ⟨h1, h2, e⟩ | ⟨h1, h2, h3, e⟩
  · exact e ▸ .same
  · exact e ▸ .same
  · exact e ▸ .error .sequence h1 h2
  · exact e ▸ .error .reservedOperand h1 h2
  · rw [e]
    exact h h1 h2 fun h4 => ⟨(h3 h4).1, (h3 h4).2.1⟩

/-- Every command answers one of the cases. -/
theorem exec_cases (i : Instr) (s : State) : ExecCase i s (exec i s) := by
  cases i with
  | nop data => exact perform_execCase fun _ _ _ => .same
  | setTarget v =>
    refine perform_execCase fun _ h2 h3 => .setTarget v ?_
    by_cases h : s.phase = .error
    · exact absurd (h2 h) (by simp [isReset])
    · simpa [allowedIn] using (h3 h).1
  | setBoot v =>
    refine perform_execCase fun _ h2 h3 => .setBoot v ?_
    by_cases h : s.phase = .error
    · exact absurd (h2 h) (by simp [isReset])
    · simpa [allowedIn] using (h3 h).1
  | setFlash v =>
    refine perform_execCase fun _ h2 h3 => .setFlash v ?_
    by_cases h : s.phase = .error
    · exact absurd (h2 h) (by simp [isReset])
    · simpa [allowedIn] using (h3 h).1
  | setPladdr v =>
    refine perform_execCase fun _ h2 h3 => .setPladdr v ?_
    by_cases h : s.phase = .error
    · exact absurd (h2 h) (by simp [isReset])
    · simpa [allowedIn] using (h3 h).1
  | fwByte data =>
    refine perform_execCase fun h1 h2 h3 => ?_
    have hp : s.phase ≠ .error := fun h => absurd (h2 h) (by simp [isReset])
    have hl : s.phase = .load := by simpa [allowedIn] using (h3 hp).1
    rcases absorbFw_cases Config.params (byteOperand data) s with ⟨-, e⟩ | ⟨hc, e⟩ | ⟨hc, e⟩ <;> rw [e]
    · exact .error .fwOverflow h1 hp
    · exact .stopIndex hl (.inl (by unfold padLength; omega))
    · exact .fwByte _ hl hc
  | plByte data =>
    refine perform_execCase fun h1 h2 h3 => ?_
    have hp : s.phase ≠ .error := fun h => absurd (h2 h) (by simp [isReset])
    have hl : s.phase = .load := by simpa [allowedIn] using (h3 hp).1
    rcases absorbPl_cases Config.params (byteOperand data) s with ⟨-, e⟩ | ⟨hc, e⟩ | ⟨hc, e⟩ <;> rw [e]
    · exact .error .plOverflow h1 hp
    · exact .stopIndex hl (.inr hc)
    · exact .plByte _ hl (h3 hp).2 hc
  | sealFw data =>
    refine perform_execCase fun h1 h2 h3 => ?_
    have hp : s.phase ≠ .error := fun h => absurd (h2 h) (by simp [isReset])
    have hl : s.phase = .load := by simpa [allowedIn] using (h3 hp).1
    rcases sealImage_cases Config.params s with ⟨-, e⟩ | ⟨-, -, e⟩ | ⟨hc, e⟩ | ⟨hn, hr, hc, e⟩ <;> rw [e]
    · exact .error .fwEmpty h1 hp
    · exact .error .addrRange h1 hp
    · exact .stopIndex hl (.inl hc)
    · exact .sealImage hl hn hr hc
  | emit data =>
    refine perform_execCase fun _ h2 h3 => .emit ?_
    have hp : s.phase ≠ .error := fun h => absurd (h2 h) (by simp [isReset])
    simpa [allowedIn] using (h3 hp).1
  | reset data => exact perform_execCase fun h1 _ _ => .reset h1

/-- Everything a beat can answer: the cases of the command it decodes to, or those of a reserved opcode. -/
theorem executeBeat_cases (w : Beat) (s : State) :
    (∃ i, decode w = .ok i ∧ ExecCase i s (executeBeat w s)) ∨
    (∃ opc, decode w = .error (.reservedOpcode opc) ∧
      (executeBeat w s = .next s ∨
        s.phase ≠ .emitting ∧ s.phase ≠ .error ∧ executeBeat w s = .next (raise .illegalOpcode opc s))) := by
  unfold executeBeat
  cases decode w with
  | ok i => exact .inl ⟨i, rfl, exec_cases i s⟩
  | error e =>
    obtain ⟨opc⟩ := e
    refine .inr ⟨opc, rfl, ?_⟩
    rcases reservedBeat_cases opc s with ⟨-, e⟩ | ⟨h1, h2, e⟩
    · exact .inl e
    · exact .inr ⟨h1, h2, e⟩

/-- A decoded command has the opcode of its beat. -/
theorem decode_opcode {w : Beat} {i : Instr} (h : decode w = .ok i) : i.opcode = beatOpc w := by
  unfold decode decodeFields at h
  split at h <;> cases h <;> (rename_i hn; exact BitVec.eq_of_toNat_eq (by rw [hn]; rfl))

/-- A refused beat is refused by its own opcode. -/
theorem decode_reserved {w : Beat} {opc : Byte} (h : decode w = .error (.reservedOpcode opc)) : opc = beatOpc w := by
  unfold decode decodeFields at h
  split at h <;> cases h
  rfl

/-- An opcode outside the ten of 30_encoding R93 is refused by name. -/
theorem decode_of_reserved {w : Beat}
    (h : beatOpc w ∉ ([0x00, 0x01, 0x02, 0x03, 0x04, 0x10, 0x11, 0x20, 0x21, 0xFF] : List Byte)) :
    decode w = .error (.reservedOpcode (beatOpc w)) := by
  simp only [List.mem_cons, List.not_mem_nil, or_false, not_or] at h
  unfold decode decodeFields
  split <;> first | rfl | (exfalso; bv_omega)

/-- The must-be-zero bits of form B8 are zero exactly for a byte. -/
theorem operandOk_b8 (d : Word) : operandOk .b8 d = decide (d.toNat ≤ 0xFF) := by
  have hm : mustBeZero .b8 = ~~~ (255#64) := rfl
  have hd : d.toNat ≤ 0xFF ↔ d >>> 8 = 0 := by
    rw [← BitVec.toNat_inj]
    simp [BitVec.toNat_ushiftRight, Nat.shiftRight_eq_div_pow]
    omega
  unfold operandOk
  congr 1
  rw [hm]
  refine propext (Iff.trans ?_ hd.symm)
  clear hm hd
  constructor
  · intro h
    apply BitVec.eq_of_getLsbD_eq
    intro j hj
    have h2 := congrArg (fun x => BitVec.getLsbD x (8 + j)) h
    simp only [BitVec.getLsbD_and] at h2
    rw [BitVec.getLsbD_ushiftRight]
    clear h
    by_cases h3 : 8 + j < 64
    · have h1 : j < 56 := by omega
      interval_cases j <;> simpa using h2
    · rw [BitVec.getLsbD_of_ge _ _ (by omega)]
      simp
  · intro h
    apply BitVec.eq_of_getLsbD_eq
    intro j hj
    by_cases h8 : j < 8
    · clear h
      interval_cases j <;> simp
    · have h2 := congrArg (fun x => BitVec.getLsbD x (j - 8)) h
      simp only [BitVec.getLsbD_ushiftRight] at h2
      rw [show 8 + (j - 8) = j by omega] at h2
      simp only [BitVec.getLsbD_and, h2]
      simp

/-- The must-be-zero bits of form Z are zero exactly for DATA 0. -/
theorem operandOk_z (d : Word) : operandOk .z d = decide (d = 0) := by
  unfold operandOk
  rw [show mustBeZero .z = BitVec.allOnes 64 from rfl, BitVec.and_allOnes]

end Sys2Proof.Machine
end

