-- ==== Sys2Proof/Laws/Image.lean ====
section
/-! SUPPORT. What a sealed image and its two artifacts depend on, and what `in_range` and the parameters say in plain arithmetic. -/

namespace Sys2Proof.Machine

/-- `in_range` in plain arithmetic: the last address of each region is at most `2^64 - 1` (42_seal R164). -/
theorem inRange_iff (flash : Word) (size : Nat) (present : Bool) (pladdr plCnt : Word) :
    inRange flash size present pladdr plCnt = true ↔
      flash.toNat + 32 + size ≤ 2 ^ 64 ∧ (present = true → plCnt ≠ 0 → pladdr.toNat + plCnt.toNat ≤ 2 ^ 64) := by
  have : plCnt ≠ 0 → plCnt.toNat ≠ 0 := fun h hh => h (BitVec.eq_of_toNat_eq (by simpa using hh))
  simp only [inRange, Bool.and_eq_true, Bool.or_eq_true, decide_eq_true_eq, Bool.not_eq_true']
  constructor
  · rintro ⟨h1, h2⟩
    refine ⟨by omega, fun h3 h4 => ?_⟩
    have := this h4
    rcases h2 with (h2 | h2) | h2
    · simp [h2] at h3
    · exact absurd h2 h4
    · omega
  · rintro ⟨h1, h2⟩
    refine ⟨by omega, ?_⟩
    cases present with
    | false => simp
    | true =>
      by_cases h4 : plCnt = 0
      · simp [h4]
      · have := h2 rfl h4
        exact .inr (by omega)

/-- FW_CAP is a multiple of 8 of at most `2^32 - 8` (00_scope R11). -/
theorem fwCap_bounds (p : Params) : p.fwCap % 8 = 0 ∧ 8 ≤ p.fwCap ∧ p.fwCap ≤ 2 ^ 32 - 8 := by
  have := p.fwWords.isLt
  unfold Params.fwCap
  omega

/-- The padded length is the least multiple of 8 that is enough (42_seal R162). -/
theorem padLength_bounds (n : Nat) : padLength n % 8 = 0 ∧ n ≤ padLength n ∧ padLength n < n + 8 := by
  unfold padLength
  omega

/-- The text depends on the image alone. -/
theorem txtSeq_sameImage {s t : State} (h : SameImage s t) (c : HexCase) : txtSeq c t = txtSeq c s := by
  obtain ⟨h1, h2, h3, h4, h5, h6, h7, h8, h9, h10, h11, h12⟩ := h
  simp only [txtSeq, firmwareBytes, payloadBytes, imageText, h1, h2, h3, h4, h5, h7, h8, h9, h10, h11, h12]

/-- The map depends on the image alone. -/
theorem mapSeq_sameImage {s t : State} (h : SameImage s t) : mapSeq t = mapSeq s := by
  obtain ⟨h1, h2, h3, h4, h5, h6, h7, h8, h9, h10, h11, h12⟩ := h
  simp only [mapSeq, firmwareBytes, payloadBytes, primaryRecords, h1, h2, h3, h4, h5, h7, h8, h9, h10, h11, h12]

/-- A sealed image stays one while the image is the same. -/
theorem sealedImage_sameImage {s t : State} (h : SameImage s t) (hs : SealedImage s) : SealedImage t := by
  obtain ⟨h1, h2, h3, h4, h5, h6, h7, h8, h9, h10, h11, h12⟩ := h
  unfold SealedImage firmwareBytes fwByteAt at *
  rw [h1, h2, h3, h4, h5, h6, h7, h8, h9, h10, h12]
  exact hs

/-- There are SIZE firmware bytes. -/
@[simp] theorem firmwareBytes_length (s : State) : (firmwareBytes s).length = s.size.toNat := bufBytes_length _ _ _ _

/-- There are PLCNT payload bytes. -/
@[simp] theorem payloadBytes_length (s : State) : (payloadBytes s).length = s.plCnt.toNat := bufBytes_length _ _ _ _

/-- Firmware byte `k` of the image is `FW_BUF[k]`. -/
theorem firmwareBytes_getElem? (s : State) (k : Nat) :
    (firmwareBytes s)[k]? = if k < s.size.toNat then some (fwByteAt s k) else none := by
  rw [firmwareBytes, bufBytes_getElem?, Nat.zero_add]
  rfl

/-- Payload byte `k` of the image is `PL_BUF[k]`. -/
theorem payloadBytes_getElem? (s : State) (k : Nat) :
    (payloadBytes s)[k]? = if k < s.plCnt.toNat then some (plByteAt s k) else none := by
  rw [payloadBytes, bufBytes_getElem?, Nat.zero_add]
  rfl

/-- What SEAL leaves in FW_BUF: zeros in the padding and every other byte as it was (42_seal R165). -/
theorem fwByteAt_sealedState (s : State) (k : Nat) :
    fwByteAt (sealedState s) k
      = if s.fwCnt.toNat ≤ k ∧ k < padLength s.fwCnt.toNat then 0x00 else fwByteAt s k := by
  have := padLength_bounds s.fwCnt.toNat
  simp only [fwByteAt, sealedState_resets, sealedState_fwBuf, paddedBuf, bufRead_padZeros,
    show s.fwCnt.toNat + (padLength s.fwCnt.toNat - s.fwCnt.toNat) = padLength s.fwCnt.toNat by omega]

end Sys2Proof.Machine
end

