-- ==== Sys2Proof/Laws/PerInstr.lean ====
section
/-! SUPPORT. The family EncodeFields, one lemma per command: the encoder puts the opcode of the command into OPC and its DATA into
DATA (30_encoding R90, R99). -/

namespace Sys2Proof.Laws.EncodeFields

/-- The two fields of the beat of `i` are its opcode and its DATA. -/
def Statement (i : Instr) : Prop := beatOpc (encode i) = i.opcode ∧ beatData (encode i) = i.data

/-- The fields of a concatenation are its parts. -/
theorem fields_append (o : Byte) (d : Word) : beatOpc (o ++ d) = o ∧ beatData (o ++ d) = d := by
  constructor
  · apply BitVec.eq_of_getLsbD_eq
    intro i hi
    rw [beatOpc, BitVec.getLsbD_extractLsb', BitVec.getLsbD_append]
    simp [hi]
  · apply BitVec.eq_of_getLsbD_eq
    intro i hi
    rw [beatData, BitVec.getLsbD_extractLsb', BitVec.getLsbD_append]
    simp [hi]

theorem nop (data : Word) : Statement (.nop data) := fields_append _ _
theorem setTarget (v : Word) : Statement (.setTarget v) := fields_append _ _
theorem setBoot (v : Word) : Statement (.setBoot v) := fields_append _ _
theorem setFlash (v : Word) : Statement (.setFlash v) := fields_append _ _
theorem setPladdr (v : Word) : Statement (.setPladdr v) := fields_append _ _
theorem fwByte (data : Word) : Statement (.fwByte data) := fields_append _ _
theorem plByte (data : Word) : Statement (.plByte data) := fields_append _ _
theorem sealFw (data : Word) : Statement (.sealFw data) := fields_append _ _
theorem emit (data : Word) : Statement (.emit data) := fields_append _ _
theorem reset (data : Word) : Statement (.reset data) := fields_append _ _

end Sys2Proof.Laws.EncodeFields
end

