-- ==== Sys2Proof/Laws/Step.lean ====
section
/-! SUPPORT. Everything a step that answers a next state can do, said once as a relation, and what a reset leaves. -/

namespace Sys2Proof.Machine

/-- Everything a step from `s` can leave. -/
inductive StepCase (s : State) : State → Prop
  /-- No turn is left. -/
  | idle (h : s.sched = []) : StepCase s s
  /-- A turn with no beat to accept or no element to send. -/
  | pass (x : Turn) (rest : List Turn) (h : s.sched = x :: rest) : StepCase s { s with sched := rest }
  /-- A beat whose command has one of its cases. -/
  | beat (w : Beat) (ws : List Beat) (rest : List Turn) (i : Instr) (t : State) (h : s.sched = .engine :: rest)
      (hw : s.cmdIn = w :: ws) (hp : s.phase ≠ .emitting) (hd : decode w = .ok i)
      (hx : ExecCase i { s with sched := rest, cmdIn := ws } (.next t)) : StepCase s t
  /-- A beat with a reserved opcode, discarded. -/
  | discard (w : Beat) (ws : List Beat) (rest : List Turn) (h : s.sched = .engine :: rest) (hw : s.cmdIn = w :: ws) :
      StepCase s { s with sched := rest, cmdIn := ws }
  /-- A beat with a reserved opcode, answered with an error. -/
  | illegal (w : Beat) (ws : List Beat) (rest : List Turn) (h : s.sched = .engine :: rest) (hw : s.cmdIn = w :: ws)
      (hp : s.phase ≠ .emitting) (hq : s.phase ≠ .error) :
      StepCase s (raise .illegalOpcode (beatOpc w) { s with sched := rest, cmdIn := ws })
  /-- An octet sent. -/
  | txt (x : TxtXfer) (rest : List Turn) (h : s.sched = .txt :: rest) (hp : s.phase = .emitting) (hd : s.txtDone = false)
      (hx : txtOffer Config.params s = .ok x) : StepCase s (sendTxt x { s with sched := rest })
  /-- A record sent. -/
  | map (x : MapXfer) (rest : List Turn) (h : s.sched = .map :: rest) (hp : s.phase = .emitting) (hd : s.mapDone = false)
      (hx : mapOffer Config.params s = .ok x) : StepCase s (sendMap x { s with sched := rest })
  /-- A read answered. -/
  | read (idx : BitVec 4) (rest : List Turn) (h : s.sched = .read idx :: rest) :
      StepCase s { s with sched := rest, rdOut := s.rdOut ++ [{ idx := idx, data := readPort Config.params s idx }] }
  /-- `rst`. -/
  | rst (lost : Bool) (rest : List Turn) (h : s.sched = .rst lost :: rest) :
      StepCase s { resetBlock { s with sched := rest } with cmdIn := if lost then s.cmdIn.tail else s.cmdIn }

/-- Every step that answers a next state has one of the cases. -/
theorem step_stepCase {s t : State} (h : step s = .next t) : StepCase s t := by
  rcases step_cases s with ⟨h1, e⟩ | ⟨rest, h1, e⟩ | ⟨rest, h1, e⟩ | ⟨rest, h1, e⟩ | ⟨idx, rest, h1, e⟩ | ⟨lost, rest, h1, e⟩ <;>
    rw [e] at h
  · cases h
    exact .idle h1
  · rcases engineTurn_cases { s with sched := rest } with ⟨-, e2⟩ | ⟨h2, w, ws, h3, e2⟩ <;> rw [e2] at h
    · cases h
      exact .pass _ _ h1
    · rcases executeBeat_cases w { s with sched := rest, cmdIn := ws } with ⟨i, hd, hc⟩ | ⟨opc, hd, e3 | ⟨-, h4, e3⟩⟩
      · exact .beat w ws rest i t h1 h3 h2 hd (h ▸ hc)
      · cases h.symm.trans e3
        exact .discard w ws rest h1 h3
      · cases h.symm.trans e3
        rw [decode_reserved hd]
        exact .illegal w ws rest h1 h3 h2 h4
  · rcases txtTurn_cases Config.params { s with sched := rest } with ⟨-, e2⟩ | ⟨-, f, -, e2⟩ | ⟨h2, x, h3, e2⟩ <;> rw [e2] at h <;> cases h
    · exact .pass _ _ h1
    · obtain ⟨hp, hd⟩ : s.phase = .emitting ∧ s.txtDone = false := by simpa [txtValid] using h2
      exact .txt x rest h1 hp hd h3
  · rcases mapTurn_cases Config.params { s with sched := rest } with ⟨-, e2⟩ | ⟨-, f, -, e2⟩ | ⟨h2, x, h3, e2⟩ <;> rw [e2] at h <;> cases h
    · exact .pass _ _ h1
    · obtain ⟨hp, hd⟩ : s.phase = .emitting ∧ s.mapDone = false := by simpa [mapValid] using h2
      exact .map x rest h1 hp hd h3
  · cases h
    exact .read idx rest h1
  · cases h
    exact .rst lost rest h1

/-- A run goes on from what its first step answers. -/
theorem core_run_succ {s t : State} (n : Nat) (h : step s = .next t) :
    Host.Core.run Sys2Proof.core (n + 1) s = Host.Core.run Sys2Proof.core n t := by
  have h' : Sys2Proof.core.step s = .next t := h
  simp only [Host.Core.run, h']

/-- A reset leaves the block in its state after one more reset. -/
theorem afterReset_resetBlock (s : State) : AfterReset s (resetBlock s) :=
  ⟨⟨rfl, rfl, rfl, rfl, rfl, rfl, rfl, rfl, rfl, rfl, rfl, rfl⟩, rfl, rfl, rfl, rfl, rfl, rfl, rfl⟩

/-- So does `rst`, whatever turns and beats are left to the HOST. -/
theorem afterReset_rst (s : State) (rest : List Turn) (ws : List Beat) :
    AfterReset s { resetBlock { s with sched := rest } with cmdIn := ws } :=
  ⟨⟨rfl, rfl, rfl, rfl, rfl, rfl, rfl, rfl, rfl, rfl, rfl, rfl⟩, rfl, rfl, rfl, rfl, rfl, rfl, rfl⟩

/-- The buffers of the reset state are in canonical form, whatever the capacity. -/
theorem reset_bufWf (cap : Nat) : bufWf cap State.reset.fwBuf = true ∧ bufWf cap State.reset.plBuf = true := ⟨rfl, rfl⟩

end Sys2Proof.Machine
end

