-- ==== Sys2Proof/Laws/Streams.lean ====
section
/-! SUPPORT. The two streams taken apart once: what TxtSeq and MapSeq are made of, the lengths of their parts, and the records of a
body by index. -/

namespace Sys2Proof.Machine

/-- What TxtSeq is with no payload: header and firmware (43_emit R196, R201). -/
theorem txtSeq_absent (c : HexCase) {s : State} (h : s.plPresent = false) :
    txtSeq c s = imageText c s (firmwareBytes s) none := by simp [txtSeq, h]

/-- What TxtSeq is with a payload (43_emit R196, R200). -/
theorem txtSeq_present (c : HexCase) {s : State} (h : s.plPresent = true) :
    txtSeq c s = imageText c s (firmwareBytes s) (some (payloadBytes s)) := by simp [txtSeq, h]

/-- What MapSeq is with no payload (43_emit R210). -/
theorem mapSeq_absent {s : State} (h : s.plPresent = false) : mapSeq s = primaryRecords s (firmwareBytes s) := by simp [mapSeq, h]

/-- What MapSeq is with a payload (43_emit R211). -/
theorem mapSeq_present {s : State} (h : s.plPresent = true) :
    mapSeq s = primaryRecords s (firmwareBytes s) ++ bodyRecords s.pladdr.toNat (payloadBytes s) := by simp [mapSeq, h]

/-- A line is one octet longer than its characters. -/
@[simp] theorem textLine_length (t : List Byte) : (textLine t).length = t.length + 1 := by simp [textLine]

/-- A byte is two characters. -/
@[simp] theorem hex2_length (c : HexCase) (b : Byte) : (hex2 c b).length = 2 := rfl

/-- A byte line is three octets. -/
@[simp] theorem byteLines_length (c : HexCase) (bs : List Byte) : (byteLines c bs).length = 3 * bs.length := by
  induction bs with
  | nil => rfl
  | cons b bs ih =>
    simp only [byteLines, List.flatMap_cons, List.length_append] at *
    rw [ih]
    simp [byteLine]
    omega

/-- A header field is 25 octets. -/
@[simp] theorem fieldLines_length (c : HexCase) (v : Word) : (fieldLines c v).length = 25 := by
  simp [fieldLines, textFieldBytes]

/-- The shortest spelling is a nonempty list of digits. -/
theorem hexmin_digits (c : HexCase) (v : Word) : ∃ ds : List (BitVec 4), hexmin c v = ds.map (hexDigit c) ∧ ds ≠ [] := by
  unfold hexmin
  split
  · exact ⟨[0], rfl, by simp⟩
  · rename_i hd
    exact ⟨_, rfl, hd⟩

/-- The shortest spelling is at most 16 characters. -/
theorem hexmin_length_le (c : HexCase) (v : Word) : (hexmin c v).length ≤ 16 := by
  have hn : ∀ n, (nibbles v n).length = n := fun n => by induction n <;> simp [nibbles, *]
  unfold hexmin
  split
  · simp
  · have := (List.dropWhile_sublist (fun d : BitVec 4 => decide (d = 0)) (l := nibbles v 16)).length_le
    rw [hn] at this
    simpa using this

/-- The padded spelling is at most 16 characters. -/
theorem hex8_length_le (c : HexCase) (v : Word) : (hex8 c v).length ≤ 16 := by
  have := hexmin_length_le c v
  simp only [hex8, List.length_append, List.length_replicate]
  omega

/-- A body has one record for each byte. -/
@[simp] theorem bodyRecords_length (a : Nat) (bs : List Byte) : (bodyRecords a bs).length = bs.length := by
  induction bs generalizing a <;> simp [bodyRecords, *]

/-- The primary region is the header's 32 records and one for each firmware byte. -/
theorem primaryRecords_length (s : State) (firmware : List Byte) :
    (primaryRecords s firmware).length = 32 + firmware.length := by
  simp [primaryRecords, fieldRecords]
  omega

/-- Record `k` of a body is byte `k` at the base plus `k`. -/
theorem bodyRecords_getElem? (a : Nat) (bs : List Byte) (k : Nat) :
    (bodyRecords a bs)[k]? = bs[k]?.map (fun b => (a + k, b)) := by
  induction bs generalizing a k with
  | nil => simp [bodyRecords]
  | cons b bs ih =>
    cases k with
    | zero => simp [bodyRecords]
    | succ k =>
      simp [bodyRecords, ih]
      congr 1
      funext b
      congr 1
      omega

/-- A body's addresses. -/
theorem bodyRecords_addr {a : Nat} {bs : List Byte} {r : Host.Cell} (h : r ∈ bodyRecords a bs) :
    a ≤ r.1 ∧ r.1 < a + bs.length := by
  induction bs generalizing a with
  | nil => simp [bodyRecords] at h
  | cons b bs ih =>
    rcases List.mem_cons.mp h with rfl | h
    · simp
    · have := ih h
      simp
      omega

/-- The primary region is one body: the header bytes, byte 0 of each field first, and then the firmware. -/
theorem primaryRecords_eq_body (s : State) (firmware : List Byte) :
    primaryRecords s firmware = bodyRecords s.flash.toNat
      ([s.target, s.boot, s.size, s.acc].flatMap (fun v => (textFieldBytes v).reverse) ++ firmware) := rfl

/-- Transfer `n` of a whole TXT artifact. -/
theorem txtTransfers_getElem? (q : List Byte) (n : Nat) :
    (txtTransfers q)[n]? = q[n]?.map (fun o => { octet := o, last := decide (n + 1 = q.length) }) := by
  simp [txtTransfers, List.getElem?_mapIdx]

/-- Transfer `n` of a whole MAP artifact. -/
theorem mapTransfers_getElem? (q : List Host.Cell) (n : Nat) :
    (mapTransfers q)[n]? =
      q[n]?.map (fun r => { addr := BitVec.ofNat 64 r.1, data := r.2, last := decide (n + 1 = q.length) }) := by
  simp [mapTransfers, List.getElem?_mapIdx]

end Sys2Proof.Machine
end

