-- ==== Sys2Proof/Tests/Slice0.lean ====
section
/-! SUPPORT. Tests. Expected values are those of 95_test_vectors, whose vector each test names, or are written out from the rule it
names. The vectors fix FW_CAP = 64, PL_CAP = 16 and lower-case hex; the block's own parameters are opaque, so these tests run the
parts of the commands that depend on them at the vectors' parameters. The second half gives, for each obligation with hypotheses, a
concrete case that meets them. -/

namespace Sys2Proof.Tests

open Sys2Proof.Machine

/-! ### Helpers -/

/-- FW_CAP = 64, PL_CAP = 16, HEX_CASE = lower (95_test_vectors). -/
def vectorParams : Params := { fwWords := 7, plCap := 16, hexCase := .lower }

/-- One field of a next state. -/
def field {α : Type} (f : State → α) (r : Result) : Option α :=
  match r with
  | .next t => some (f t)
  | .fault _ => none
  | .refused _ => none

/-- `exec` at other parameters. -/
def execAt (p : Params) (i : Instr) (s : State) : Result :=
  match i with
  | .fwByte d => perform (.fwByte d) s (absorbFw p (byteOperand d) s)
  | .plByte d => perform (.plByte d) s (absorbPl p (byteOperand d) s)
  | .sealFw d => perform (.sealFw d) s (sealImage p s)
  | other => exec other s

/-- At the block's own parameters it is `exec`. -/
theorem test_execAt_is_exec (i : Instr) (s : State) : execAt Config.params i s = exec i s := by
  cases i <;> rfl

/-- LOAD with these firmware bytes absorbed. -/
def loaded (bytes : List Byte) : State :=
  { State.reset with fwCnt := BitVec.ofNat 64 bytes.length, fwBuf := bytes.mapIdx (fun i b => (i, b)) }

/-- Program P1 after SEAL. -/
def p1Sealed : State :=
  { State.reset with
    phase := .sealed
    fwCnt := 2
    size := 8
    acc := 0xFFFFFFFFFFFFFDF6
    fwBuf := [(0, 0x01), (1, 0x02), (2, 0), (3, 0), (4, 0), (5, 0), (6, 0), (7, 0)] }

/-- Program P1 after EMIT. -/
def p1Emitting : State := { p1Sealed with phase := .emitting }

/-- Program P1 drained. -/
def p1Done : State :=
  { p1Sealed with phase := .done, txtCur := 127, mapCur := 40, txtDone := true, mapDone := true }

/-- Program P1 sealed with an empty payload at 0x123456789 besides (TX4). -/
def tx4Sealed : State := { p1Sealed with pladdr := 0x123456789, plPresent := true }

/-- Program P1 sealed with the payload AA BB at 0x100000 besides (bytes of P2). -/
def payloadSealed : State :=
  { p1Sealed with pladdr := 0x100000, plPresent := true, plCnt := 2, plBuf := [(0, 0xAA), (1, 0xBB)] }

/-- A state in ERROR after a reserved opcode (SY2). -/
def failed : State := { State.reset with phase := .error, errCode := 0x01, errOpc := 0x05 }

/-- These beats presented, and the ENGINE to act. -/
def presenting (w : Beat) (s : State) : State := { s with cmdIn := [w], sched := [.engine] }

/-- Lines of characters as octets, each with its LF. -/
def textOf (lines : List (List Char)) : List Byte :=
  lines.flatMap (fun l => l.map (fun c => BitVec.ofNat 8 c.toNat) ++ [0x0A])

/-- `n` lines `00`. -/
def zeroLines (n : Nat) : List (List Char) := List.replicate n ['0', '0']

/-! ### Well-formedness: the ill-formed term of each check is refused (30_encoding R92) -/

theorem test_fwByte_illFormed : Instr.wellFormed (.fwByte 0x100) = false := by decide
theorem test_fwByte_wellFormed : Instr.wellFormed (.fwByte 0xFF) = true := by decide
theorem test_plByte_illFormed : Instr.wellFormed (.plByte 0x8000000000000000) = false := by decide
theorem test_sealFw_illFormed : Instr.wellFormed (.sealFw 1) = false := by decide
theorem test_emit_illFormed : Instr.wellFormed (.emit 0x8000000000000000) = false := by decide

/-! ### Decoding: a beat written out from the encoding of each command (30_encoding R90, R93; 95_test_vectors) -/

theorem test_decode_nop : decode 0x000000000000001234 = .ok (.nop 0x1234) := by decide
theorem test_decode_setTarget : decode 0x010000000080000000 = .ok (.setTarget 0x80000000) := by decide
theorem test_decode_setBoot : decode 0x020000000080000100 = .ok (.setBoot 0x80000100) := by decide
theorem test_decode_setFlash : decode 0x03FFFFFFFFFFFFFFD8 = .ok (.setFlash 0xFFFFFFFFFFFFFFD8) := by decide
theorem test_decode_setPladdr : decode 0x040000000000100000 = .ok (.setPladdr 0x100000) := by decide
theorem test_decode_fwByte : decode 0x100000000000000093 = .ok (.fwByte 0x93) := by decide
theorem test_decode_plByte : decode 0x1100000000000000AA = .ok (.plByte 0xAA) := by decide
theorem test_decode_sealFw : decode 0x200000000000000000 = .ok (.sealFw 0) := by decide
theorem test_decode_emit : decode 0x210000000000000001 = .ok (.emit 1) := by decide
theorem test_decode_reset : decode 0xFF000000000000DEAD = .ok (.reset 0xDEAD) := by decide
theorem test_decode_reserved : decode 0x7F000000000000FFFF = .error (.reservedOpcode 0x7F) := by decide
theorem test_encode_setFlash : encode (.setFlash 0x2000000) = 0x030000000002000000 := by decide

/-- The opcode table's rows: OPC in bits 71:64 of one 72-bit number. -/
theorem test_decodeTableWord : decodeTableWord 72 0x1100000000000000AA = some (.plByte 0xAA) := by decide

/-- A reserved opcode is no command. -/
theorem test_decodeTableWord_reserved : decodeTableWord 72 0x050000000000000000 = none := by decide

/-! ### One step from reset runs a presented beat, at the block's own parameters -/

theorem test_step_setTarget :
    field State.target (step (State.reset.withFetchWord 72 0x010000000080000000)) = some 0x80000000 := by decide
theorem test_step_fwByte :
    field State.fwBuf (step (State.reset.withFetchWord 72 0x100000000000000001)) = some [(0, 0x01)] := by decide
theorem test_step_plByte :
    field statusWord (step (State.reset.withFetchWord 72 0x110000000000000001)) = some 0x0000000000110204 := by decide
theorem test_step_seal :
    field statusWord (step (State.reset.withFetchWord 72 0x200000000000000000)) = some 0x0000000000200604 := by decide
theorem test_step_emit :
    field statusWord (step (State.reset.withFetchWord 72 0x210000000000000000)) = some 0x0000000000210204 := by decide
theorem test_step_reserved :
    field statusWord (step (State.reset.withFetchWord 72 0x7F000000000000FFFF)) = some 0x00000000007F0104 := by decide

/-! ### Words and checksum (RW and S vectors) -/

theorem test_reverse_rw1 : reverseWordBytes 0x0102030405060708 = 0x0807060504030201 := by decide
theorem test_reverse_rw6 : reverseWordBytes 0x8000000000000001 = 0x0100000000000080 := by decide
theorem test_checksum_s1 : checksum 0 0 8 [0x01, 0x02, 0, 0, 0, 0, 0, 0] = 0xFFFFFFFFFFFFFDF6 := by decide
theorem test_checksum_s3 :
    checksum 0x80000000 0x80000100 16 [0x13, 0x05, 0x00, 0x00, 0x93, 0x05, 0x10, 0x00, 0x73, 0, 0, 0, 0, 0, 0, 0]
      = 0xFFEFFA6CFFFFFB8F := by decide
theorem test_checksum_s4 :
    checksum 0xFFFFFFFFFFFFFFFF 0x123456789ABCDEF 8 [0xFF, 0, 0, 0, 0, 0, 0, 0] = 0x0123456789ABCD18 := by decide
theorem test_checksum_s11 :
    checksum 0 0 16 [0x08, 0x07, 0x06, 0x05, 0x04, 0x03, 0x02, 0x01, 0x01, 0x02, 0x03, 0x04, 0x05, 0x06, 0x07, 0x08]
      = 0xF6FAFAFEFEFAFAE6 := by decide
/-- E5. -/
theorem test_padLength : [1, 2, 7, 8, 9, 15, 16, 17, 64].map padLength = [8, 8, 8, 8, 16, 16, 16, 24, 64] := by decide

/-! ### Commands (CF, AB, SE, EM, SY and ER vectors) -/

theorem test_setBoot_last_write_wins : field State.boot (exec (.setBoot 2) { State.reset with boot := 1 }) = some 2 := by decide
theorem test_setFlash_cf6 : field statusWord (exec (.setFlash 0xFFFFFFFFFFFFFFFF) State.reset) = some 0 := by decide
theorem test_setPladdr_cf3 : field statusWord (exec (.setPladdr 0x100000) State.reset) = some 0x0000000000000008 := by decide
theorem test_setTarget_cf4 : field statusWord (exec (.setTarget 5) p1Sealed) = some 0x0000000000010204 := by decide
theorem test_setPladdr_cf5 :
    field (fun t => (t.pladdr, t.plCnt, t.plBuf))
      (exec (.setPladdr 0x2000) { State.reset with pladdr := 0x1000, plPresent := true, plCnt := 1, plBuf := [(0, 0xAA)] })
      = some (0x2000, 1, [(0, 0xAA)]) := by decide
theorem test_fwByte_ab1 :
    field (fun t => (t.fwCnt, t.fwBuf)) (execAt vectorParams (.fwByte 2) (loaded [0x01])) = some (2, [(0, 0x01), (1, 0x02)]) := by
  decide
theorem test_fwByte_ab2 : field statusWord (exec (.fwByte 0x100) State.reset) = some 0x0000000000100304 := by decide
/-- AB3 and ER5, FW_CAP = 8. -/
theorem test_fwByte_full :
    field statusWord (execAt { vectorParams with fwWords := 0 } (.fwByte 9) (loaded [1, 2, 3, 4, 5, 6, 7, 8])) = some 0x0000000000100404
    ∧ field statusWord (execAt { vectorParams with fwWords := 0 } (.fwByte 0x100) (loaded [1, 2, 3, 4, 5, 6, 7, 8]))
      = some 0x0000000000100304 := by decide
theorem test_plByte_ab5 :
    field statusWord (execAt { vectorParams with plCap := 0 } (.plByte 1) { State.reset with plPresent := true })
      = some 0x000000000011050C := by decide
theorem test_plByte_ab7 :
    field statusWord (execAt vectorParams (.plByte 0x1FF) { State.reset with plPresent := true }) = some 0x000000000011030C := by decide
theorem test_plByte_stores :
    field (fun t => (t.plCnt, t.plBuf)) (execAt vectorParams (.plByte 0xAA) { State.reset with plPresent := true })
      = some (1, [(0, 0xAA)]) := by decide
theorem test_plByte_er2 : field statusWord (exec (.plByte 0x100) State.reset) = some 0x0000000000110204 := by decide
/-- P1: the whole sealed state. -/
theorem test_seal_p1 : execAt vectorParams (.sealFw 0) (loaded [0x01, 0x02]) = .next p1Sealed := by rfl
theorem test_seal_se2 :
    field (fun t => (statusWord t, t.acc)) (execAt vectorParams (.sealFw 0) { loaded [1] with flash := 0xFFFFFFFFFFFFFFD8 })
      = some (0x0000000000000001, 0xFFFFFFFFFFFFFFF6) := by decide
theorem test_seal_se3 :
    field statusWord (exec (.sealFw 0) { loaded [1] with flash := 0xFFFFFFFFFFFFFFD9 }) = some 0x0000000000200704 := by decide
theorem test_seal_se5 :
    field statusWord (exec (.sealFw 0) { loaded [1] with pladdr := 0xFFFFFFFFFFFFFFFF, plPresent := true, plCnt := 2 })
      = some 0x000000000020070C := by decide
theorem test_seal_se4 :
    field statusWord (execAt vectorParams (.sealFw 0)
      { loaded [1] with pladdr := 0xFFFFFFFFFFFFFFFF, plPresent := true, plCnt := 1 }) = some 0x0000000000000009 := by decide
theorem test_seal_se10 : field statusWord (exec (.sealFw 1) (loaded [1])) = some 0x0000000000200304 := by decide
theorem test_seal_er1 : field statusWord (exec (.sealFw 1) p1Sealed) = some 0x0000000000200204 := by decide
theorem test_seal_er4 :
    field statusWord (exec (.sealFw 0) { State.reset with flash := 0xFFFFFFFFFFFFFFFF }) = some 0x0000000000200604 := by decide
theorem test_fwByte_ab8 : field statusWord (exec (.fwByte 1) p1Done) = some 0x0000000000100234 := by decide
theorem test_emit_em2 : field statusWord (exec (.emit 1) p1Sealed) = some 0x0000000000210304 := by decide
theorem test_emit_em3 : field (fun t => (t.phase, t.txtCur, t.txtDone)) (exec (.emit 0) p1Done) = some (.emitting, 0, false) := by
  decide
theorem test_held_em4 : field State.cmdIn (step (presenting 0xFF0000000000000000 p1Emitting)) = some [0xFF0000000000000000] := by
  decide
/-- SY3: discarded in ERROR. -/
theorem test_discard_sy3 : field statusWord (step (presenting 0x060000000000000000 failed)) = some 0x0000000000050104 := by decide
theorem test_reset_sy4 :
    field (fun t => (statusWord t, t.acc)) (exec (.reset 0xDEAD) failed) = some (0, 0xFFFFFFFFFFFFFFFF) := by decide
theorem test_nop_sy1 : exec (.nop 0x1234) State.reset = .next State.reset := by rfl
theorem test_read_sy6 : readPort vectorParams State.reset 0x9 = 0x0000001000000040 := by decide
theorem test_read_sy5 : readPort vectorParams p1Done 0xA = 0 ∧ readPort vectorParams p1Done 0xF = 0 := by decide
theorem test_read_p1 : readPort vectorParams p1Done 0x0 = 0x33 ∧ readPort vectorParams p1Done 0x8 = 0xFFFFFFFFFFFFFDF6 := by decide
/-- EM5: `rst` during emission; what the HOST holds stays. -/
theorem test_rst_em5 :
    field (fun t => (t.phase, t.size, t.txtCur, t.txtOut))
      (step { p1Emitting with txtCur := 1, txtOut := [{ octet := 0x40, last := false }], sched := [.rst false] })
      = some (.load, 0, 0, [{ octet := 0x40, last := false }]) := by decide
/-- A beat EMITTING only holds when `rst` comes: both outcomes are turns (log entry 18). -/
theorem test_rst_heldBeat :
    field State.cmdIn (step { p1Emitting with cmdIn := [0x00], sched := [.rst true] }) = some []
    ∧ field State.cmdIn (step { p1Emitting with cmdIn := [0x00], sched := [.rst false] }) = some [0x00] := by decide

/-! ### The two artifacts (section 2.5, P1, P2) -/

theorem test_hexmin :
    hexmin .lower 0 = [0x30] ∧ hexmin .lower 0x10 = [0x31, 0x30]
    ∧ hexmin .lower 0xABCDEF = [0x61, 0x62, 0x63, 0x64, 0x65, 0x66]
    ∧ hexmin .upper 0xABCDEF = [0x41, 0x42, 0x43, 0x44, 0x45, 0x46] := by decide
theorem test_hex8 :
    hex8 .lower 0 = List.replicate 8 0x30
    ∧ hex8 .lower 0x100000 = [0x30, 0x30, 0x31, 0x30, 0x30, 0x30, 0x30, 0x30]
    ∧ hex8 .lower 0x123456789 = [0x31, 0x32, 0x33, 0x34, 0x35, 0x36, 0x37, 0x38, 0x39] := by decide
/-- TX6, a byte line in each case. -/
theorem test_hex2_tx6 : hex2 .upper 0xFE = [0x46, 0x45] ∧ hex2 .lower 0xFE = [0x66, 0x65] := by decide
/-- P1, the 45 lines. -/
theorem test_text_p1 :
    txtSeq .lower p1Sealed = textOf ([['@', '0']] ++ zeroLines 8 ++ [[]] ++ zeroLines 8 ++ [[]] ++ zeroLines 7 ++ [['0', '8'], []]
      ++ List.replicate 6 ['f', 'f'] ++ [['f', 'd'], ['f', '6'], []] ++ [['0', '1'], ['0', '2']] ++ zeroLines 6) := by decide +kernel
/-- TX4: five blank lines and the directive after the firmware. -/
theorem test_text_tx4 :
    ((txtSeq .lower tx4Sealed).length, (txtSeq .lower tx4Sealed).drop 127)
      = (143, textOf [[], [], [], [], [], ['@', '1', '2', '3', '4', '5', '6', '7', '8', '9']]) := by decide +kernel
/-- P1, the 40 records: TARGET, BOOT, SIZE, the checksum, the firmware. -/
theorem test_map_p1 :
    mapSeq p1Sealed = bodyRecords 0 (List.replicate 16 0x00 ++ [0x08] ++ List.replicate 7 0x00 ++ [0xF6, 0xFD]
      ++ List.replicate 6 0xFF ++ [0x01, 0x02] ++ List.replicate 6 0x00) := by decide +kernel
/-- P2's payload records start at PLADDR, after the primary region. -/
theorem test_map_payload : (mapSeq payloadSealed).drop 40 = [(0x100000, 0xAA), (0x100001, 0xBB)] := by
  decide +kernel
/-- A TXT turn sends the first octet, `@`. -/
theorem test_txt_turn :
    field (fun t => (t.txtCur, t.txtOut)) (txtTurn vectorParams p1Emitting) = some (1, [{ octet := 0x40, last := false }]) := by
  decide +kernel
/-- The last record closes the emission: `map_last`, MAP_DONE, and DONE with TXT finished. -/
theorem test_map_turn_last :
    field (fun t => (statusWord t, t.mapOut)) (mapTurn vectorParams { p1Emitting with txtCur := 127, txtDone := true, mapCur := 39 })
      = some (0x33, [{ addr := 0x27, data := 0x00, last := true }]) := by decide +kernel
/-- An address written twice has two candidates, an unwritten one none (93 U1, U2). -/
theorem test_mapCandidates :
    mapCandidates [(5, 0x01), (6, 0x02), (5, 0x03)] 5 = [0x01, 0x03] ∧ mapCandidates [(5, 0x01)] 7 = [] := by decide

/-! ### The assembler (30_encoding R97 to R99) -/

theorem test_assemble_setFlash :
    assemble [['S', 'E', 'T', '_', 'F', 'L', 'A', 'S', 'H', ' ', '0', 'x', '2', '0', '0', '0', '0', '0', '0', ' ', ';', ' ', 'x']]
      = .ok [0x030000000002000000] := by decide
theorem test_assemble_payload :
    assembleLine ['P', 'A', 'Y', 'L', 'O', 'A', 'D', ' ', '1', '6', ',', ' ', '0', 'x', 'A', 'a', ',', '1']
      = .ok [.setPladdr 16, .plByte 0xAA, .plByte 1] := by decide
theorem test_assemble_build :
    assemble [['B', 'U', 'I', 'L', 'D']] = .ok [0x200000000000000000, 0x210000000000000000] := by decide
theorem test_assemble_refuses :
    assembleLine ['F', 'W', '_', 'B', 'Y', 'T', 'E', ' ', '2', '5', '6'] = .error .operandTooLarge
    ∧ assembleLine ['s', 'e', 'a', 'l'] = .error .unknownMnemonic
    ∧ assembleLine ['S', 'E', 'A', 'L', ' ', '0'] = .error .wrongOperands := by decide
/-- The model's choice (log entry 15): a refused line refuses the program. -/
theorem test_assemble_refusedProgram : assemble [['N', 'O', 'P'], ['x']] = .error .unknownMnemonic := by decide
/-- 70_reset R304: the order of a build. -/
theorem test_buildCommands :
    buildCommands 1 2 3 (some (4, [0xAA])) [0xEE]
      = [.setTarget 1, .setBoot 2, .setFlash 3, .setPladdr 4, .plByte 0xAA, .fwByte 0xEE, .sealFw 0, .emit 0] := by decide

/-! ### A concrete case that meets the hypotheses of each obligation, one for each clause, at the boundary of its range -/

theorem test_meets_DecodeEncodeAgree :
    decode 0xFF0000000000000000 = .ok (.reset 0) ∧ decode 0xFE0000000000000000 = .error (.reservedOpcode 0xFE)
    ∧ decode 0x000000000000000000 = .ok (.nop 0) := by decide

theorem test_meets_AssembledCommandsAreWellFormed :
    assembleLine ['F', 'W', '_', 'B', 'Y', 'T', 'E', ' ', '2', '5', '5'] = .ok [.fwByte 0xFF] := by decide

theorem test_meets_MustBeZeroBitsRaiseReservedOperand :
    State.reset.phase = .load ∧ 0xFF < (0x100 : Word).toNat
    ∧ ({ State.reset with plPresent := true } : State).phase = .load ∧ ({ State.reset with plPresent := true } : State).plPresent = true
    ∧ p1Sealed.phase = .sealed ∧ p1Done.phase = .done ∧ (1 : Word) ≠ 0 := by decide

theorem test_meets_CommandOutsideItsPhaseRaisesSequence :
    p1Sealed.phase = .sealed ∧ p1Done.phase = .done ∧ State.reset.phase = .load ∧ State.reset.plPresent = false := by decide

theorem test_meets_ReservedOpcodeRaisesIllegalOpcode :
    beatOpc 0x050000000000000000 ∉ ([0x00, 0x01, 0x02, 0x03, 0x04, 0x10, 0x11, 0x20, 0x21, 0xFF] : List Byte)
    ∧ beatOpc 0xFE0000000000000000 ∉ ([0x00, 0x01, 0x02, 0x03, 0x04, 0x10, 0x11, 0x20, 0x21, 0xFF] : List Byte)
    ∧ State.reset.phase = .load ∧ failed.phase = .error := by decide

theorem test_meets_ErrorPhaseDiscardsEveryBeatButReset :
    failed.phase = .error ∧ beatOpc 0xFE0000000000000000 ≠ 0xFF
    ∧ field State.phase (step (presenting 0x200000000000000000 failed)) = some .error := by decide

theorem test_meets_BeatsAreHeldDuringEmission :
    (presenting 0xFF0000000000000000 p1Emitting).phase = .emitting
    ∧ (presenting 0xFF0000000000000000 p1Emitting).sched = .engine :: [] := by decide

theorem test_meets_RaiseRecordsTheFirstErrorOnly : State.reset.errCode = 0 ∧ failed.errCode ≠ 0 := by decide

theorem test_meets_ErrorsArePrecise :
    (presenting 0x210000000000000000 State.reset).phase ≠ .error
    ∧ field State.phase (step (presenting 0x210000000000000000 State.reset)) = some .error := by decide

theorem test_meets_NopChangesNothing : State.reset.phase ≠ .emitting ∧ failed.phase ≠ .emitting := by decide

theorem test_meets_SetCommandsWriteTheirRegister : State.reset.phase = .load := by decide

/-- The first and the last byte of the buffer, whatever FW_CAP is. -/
theorem test_meets_FwByteAppendsOneByte :
    State.reset.phase = .load ∧ (0xFF : Word).toNat ≤ 0xFF ∧ State.reset.fwCnt.toNat < Config.params.fwCap
    ∧ ({ State.reset with fwCnt := BitVec.ofNat 64 (Config.params.fwCap - 1) } : State).fwCnt.toNat < Config.params.fwCap := by
  have := fwCap_bounds Config.params
  refine ⟨rfl, by decide, ?_, ?_⟩
  · show 0 < _
    omega
  · show (BitVec.ofNat 64 (Config.params.fwCap - 1)).toNat < _
    rw [BitVec.toNat_ofNat]
    omega

theorem test_meets_PlByteAppendsOneByte :
    ({ State.reset with plPresent := true } : State).phase = .load ∧ (0xFF : Word).toNat ≤ 0xFF
    ∧ ({ State.reset with plPresent := true } : State).plPresent = true
    ∧ ({ State.reset with plPresent := true } : State).plCnt.toNat < vectorParams.plCap.toNat
    ∧ ({ State.reset with plPresent := true, plCnt := 15 } : State).plCnt.toNat < vectorParams.plCap.toNat := by decide

/-- At the block's own parameters a state meets them exactly when the payload buffer exists (PL_CAP may be 0, 00_scope R11). -/
theorem test_meets_PlByteAppendsOneByte_own :
    Config.params.plCap.toNat = 0 ∨ ({ State.reset with plPresent := true } : State).plCnt.toNat < Config.params.plCap.toNat :=
  Nat.eq_zero_or_pos _

theorem test_meets_FullBufferRaisesOverflow :
    State.reset.phase = .load ∧ (0xFF : Word).toNat ≤ 0xFF
    ∧ ({ State.reset with fwCnt := BitVec.ofNat 64 Config.params.fwCap } : State).fwCnt.toNat = Config.params.fwCap
    ∧ ({ State.reset with plPresent := true, plCnt := Config.params.plCap.setWidth 64 } : State).plCnt.toNat
      = Config.params.plCap.toNat := by
  have := fwCap_bounds Config.params
  have := Config.params.plCap.isLt
  refine ⟨rfl, by decide, ?_, ?_⟩
  · show (BitVec.ofNat 64 Config.params.fwCap).toNat = _
    rw [BitVec.toNat_ofNat]
    omega
  · show (Config.params.plCap.setWidth 64).toNat = _
    rw [BitVec.toNat_setWidth]
    omega

/-- One byte at the highest flash offset, and a one-byte payload at the last map address (SE2, SE4). -/
theorem test_meets_SealBuildsTheImage :
    ∃ s : State, s.phase = .load ∧ s.fwCnt ≠ 0 ∧ s.fwCnt.toNat ≤ Config.params.fwCap
      ∧ s.flash.toNat + 32 + 8 * ((s.fwCnt.toNat + 7) / 8) = 2 ^ 64 ∧ s.plPresent = true ∧ s.plCnt ≠ 0
      ∧ s.pladdr.toNat + s.plCnt.toNat = 2 ^ 64 := by
  have := fwCap_bounds Config.params
  refine ⟨{ loaded [0xEE] with
    flash := 0xFFFFFFFFFFFFFFD8, pladdr := 0xFFFFFFFFFFFFFFFF, plPresent := true, plCnt := 1 }, rfl, by decide, ?_, by decide, rfl,
    by decide, by decide⟩
  show 1 ≤ _
  omega

theorem test_meets_SealOfEmptyFirmwareRaises :
    ({ State.reset with flash := 0xFFFFFFFFFFFFFFFF } : State).phase = .load
    ∧ ({ State.reset with flash := 0xFFFFFFFFFFFFFFFF } : State).fwCnt = 0 := by decide

/-- The first flash offset past the map (SE3), and the shortest payload past it (SE5). -/
theorem test_meets_SealPastTheMapRaises :
    (∃ s : State, s.phase = .load ∧ s.fwCnt ≠ 0 ∧ 2 ^ 64 + 1 = s.flash.toNat + 32 + 8 * ((s.fwCnt.toNat + 7) / 8))
    ∧ ∃ s : State, s.phase = .load ∧ s.fwCnt ≠ 0 ∧ s.plPresent = true ∧ s.plCnt ≠ 0 ∧ 2 ^ 64 + 1 = s.pladdr.toNat + s.plCnt.toNat :=
  ⟨⟨{ loaded [0xEE] with flash := 0xFFFFFFFFFFFFFFD9 }, by decide⟩,
    { loaded [0xEE] with pladdr := 0xFFFFFFFFFFFFFFFF, plPresent := true, plCnt := 2 }, by decide⟩

/-- The block's own parameters: at least 8 bytes of firmware fit. -/
theorem test_meets_PaddingLaws :
    (loaded [0x01, 0x02]).phase = .load ∧ exec (.sealFw 0) (loaded [0x01, 0x02]) = .next p1Sealed ∧ p1Sealed.phase = .sealed :=
  ⟨rfl, rfl, rfl⟩

theorem test_meets_EmitStartsBothEmitters : p1Sealed.phase = .sealed ∧ p1Done.phase = .done := by decide

theorem test_meets_ResetAndRstRestoreTheResetState :
    failed.phase ≠ .emitting ∧ ({ presenting 0 p1Emitting with sched := [.rst true] } : State).sched = .rst true :: [] := by decide

theorem test_meets_ReverseWordBytesMirrorsTheBytes : (0 : Nat) ≤ 7 ∧ (7 : Nat) ≤ 7 := by decide

theorem test_meets_ChecksumFoldsWordsLittleEndian : (([] : List Byte).length % 8 = 0) ∧ (List.replicate 8 (0 : Byte)).length % 8 = 0 := by
  decide

theorem test_meets_ChecksumSeesEverySingleByteChange :
    ([0x01, 0x02, 0, 0, 0, 0, 0, 0] : List Byte).length % 8 = 0
    ∧ ([0x01, 0x02, 0, 0, 0, 0, 0, 0] : List Byte)[1]? = some 0x02 ∧ ([0x01, 0x02, 0, 0, 0, 0, 0, 0] : List Byte)[7]? = some 0
    ∧ (0x02 : Byte) ≠ 0x03 := by decide

/-- S11 and S12 exchange their two words; S7 has two equal words. -/
theorem test_meets_ChecksumOrderCancellationAndTerms :
    (textWords [8, 7, 6, 5, 4, 3, 2, 1, 1, 2, 3, 4, 5, 6, 7, 8]).Perm (textWords [1, 2, 3, 4, 5, 6, 7, 8, 8, 7, 6, 5, 4, 3, 2, 1])
    ∧ ([1, 2, 3, 4, 5, 6, 7, 8] : List Byte).length = 8 := by decide

/-- The digits on both sides of 10, at the ends of each range. -/
theorem test_meets_HexSpellings :
    (0 : BitVec 4).toNat < 10 ∧ (9 : BitVec 4).toNat < 10 ∧ 10 ≤ (10 : BitVec 4).toNat ∧ 10 ≤ (15 : BitVec 4).toNat := by decide

theorem test_meets_TextSize : 8 ≤ p1Sealed.size.toNat := by decide

theorem test_meets_MapSize : 8 ≤ payloadSealed.size.toNat := by decide

/-- Some octets of the text of P1: the first, a digit, an upper-case letter. -/
theorem test_meets_TextCharacters : 0x40 ∈ txtSeq .lower p1Sealed ∧ 0x30 ∈ txtSeq .lower p1Sealed ∧ 0x46 ∈ txtSeq .upper p1Sealed := by
  decide +kernel

theorem test_meets_PayloadDirectiveExactlyWhenPresent : tx4Sealed.plPresent = true := rfl

/-- The first and the last field. -/
theorem test_meets_HeaderFieldRoundTrip :
    [payloadSealed.target, payloadSealed.boot, payloadSealed.size, payloadSealed.acc][0]? = some 0
    ∧ [payloadSealed.target, payloadSealed.boot, payloadSealed.size, payloadSealed.acc][3]? = some 0xFFFFFFFFFFFFFDF6 := by decide

/-- The first and the last byte of a field, of the firmware and of the payload, and the last separator. -/
theorem test_meets_TextAndMapCarryTheSameBytes :
    [payloadSealed.target, payloadSealed.boot, payloadSealed.size, payloadSealed.acc][3]? = some 0xFFFFFFFFFFFFFDF6 ∧ (7 : Nat) < 8
    ∧ (3 : Nat) < 4 ∧ 0 < payloadSealed.size.toNat ∧ 7 < payloadSealed.size.toNat
    ∧ payloadSealed.plPresent = true ∧ 0 < payloadSealed.plCnt.toNat ∧ 1 < payloadSealed.plCnt.toNat := by decide

/-- Program P1, with a payload or not, is a sealed image. -/
theorem sealedImage_of_p1 {s : State} (h1 : s.fwCnt = 2) (h2 : s.size = 8) (h3 : s.fwBuf = p1Sealed.fwBuf)
    (h4 : s.acc = checksum s.target s.boot s.size [0x01, 0x02, 0, 0, 0, 0, 0, 0])
    (h5 : inRange s.flash 8 s.plPresent s.pladdr s.plCnt = true) : SealedImage s := by
  refine ⟨by rw [h1]; decide, by rw [h1, h2]; decide, by rw [h2]; exact h5, ?_, ?_, ?_⟩
  · rw [h2, h3]
    intro k hk
    have hk2 : k < 8 := hk
    interval_cases k <;> rfl
  · rw [h4]
    unfold firmwareBytes
    rw [h2, h3]
    rfl
  · unfold fwByteAt
    rw [h1, h2, h3]
    intro k hk1 hk2
    have hk3 : 2 ≤ k := hk1
    have hk4 : k < 8 := hk2
    interval_cases k <;> rfl

theorem test_meets_MapAddressesStayInTheMap : SealedImage payloadSealed ∧ (0x100001, 0xBB) ∈ mapSeq payloadSealed :=
  ⟨sealedImage_of_p1 rfl rfl rfl (by decide) (by decide), by decide +kernel⟩

theorem test_meets_PrimaryRegionPlacesEachByteOnce :
    [p1Sealed.target, p1Sealed.boot, p1Sealed.size, p1Sealed.acc][0]? = some 0 ∧ (0 : Nat) < 8
    ∧ ([0x01, 0x02, 0, 0, 0, 0, 0, 0] : List Byte)[7]? = some 0
    ∧ 1 < ({ p1Sealed with flash := 2 } : State).flash.toNat ∧ p1Sealed.flash.toNat + 32 + 8 ≤ 40 := by decide

theorem test_meets_PrimaryRegionXorsToAllOnes : SealedImage payloadSealed :=
  sealedImage_of_p1 rfl rfl rfl (by decide) (by decide)

/-- The text of P1 starts with `@` in either case. -/
theorem p1_first (c : HexCase) : (txtSeq c p1Sealed)[0]? = some 0x40 := by cases c <;> decide +kernel

/-- No image of P1's sizes leaves the block's buffers. -/
theorem p1_inBuffers : p1Sealed.size.toNat ≤ Config.params.fwCap ∧ p1Sealed.plCnt.toNat ≤ Config.params.plCap.toNat := by
  have := fwCap_bounds Config.params
  exact ⟨by show 8 ≤ _; omega, Nat.zero_le _⟩

/-- A turn with nothing to send, and the first octet of P1. -/
theorem test_meets_TxtTurnSendsTheOctetAtTheCursor :
    ({ p1Sealed with sched := [.txt] } : State).phase ≠ .emitting ∧ p1Done.txtDone = true
    ∧ p1Emitting.phase = .emitting ∧ p1Emitting.txtDone = false
    ∧ p1Emitting.size.toNat ≤ Config.params.fwCap ∧ p1Emitting.plCnt.toNat ≤ Config.params.plCap.toNat
    ∧ (txtSeq Config.params.hexCase { p1Emitting with sched := [.txt] })[p1Emitting.txtCur.toNat]? = some 0x40 :=
  ⟨by decide, rfl, rfl, rfl, p1_inBuffers.1, p1_inBuffers.2, p1_first _⟩

/-- A turn with nothing to send, and the last record of P1 with TXT still running. -/
theorem test_meets_MapTurnSendsTheRecordAtTheCursor :
    ({ p1Sealed with sched := [.map] } : State).phase ≠ .emitting ∧ p1Done.mapDone = true
    ∧ p1Emitting.phase = .emitting ∧ p1Emitting.mapDone = false
    ∧ p1Emitting.size.toNat ≤ Config.params.fwCap ∧ p1Emitting.plCnt.toNat ≤ Config.params.plCap.toNat
    ∧ (mapSeq { p1Emitting with sched := [.map], mapCur := 39 })[39]? = some (0x27, 0x00) ∧ 0x27 < 2 ^ 64 :=
  ⟨by decide, rfl, rfl, rfl, p1_inBuffers.1, p1_inBuffers.2, by decide +kernel, by decide⟩

theorem test_meets_EmittersCommute :
    ∃ t u, txtTurn Config.params p1Emitting = .next t ∧ mapTurn Config.params t = .next u ∧ t.txtCur = 1 ∧ u.mapCur = 1 := by
  have hb : ∀ t : State, SameImage p1Sealed t → imageInBuffers Config.params t = true := by
    intro t h
    rw [imageInBuffers_iff, h.2.2.2.2.1, h.2.2.2.2.2.2.1, h.2.2.2.2.2.2.2.1]
    exact ⟨p1_inBuffers.1, fun _ => p1_inBuffers.2⟩
  have he : SameImage p1Sealed p1Emitting := ⟨rfl, rfl, rfl, rfl, rfl, rfl, rfl, rfl, rfl, rfl, rfl, rfl⟩
  obtain ⟨x, hx⟩ : ∃ x, txtOffer Config.params p1Emitting = .ok x :=
    ⟨{ octet := 0x40, last := decide (p1Emitting.txtCur.toNat + 1 = (txtSeq Config.params.hexCase p1Emitting).length) },
      txtOffer_eq_ok.mpr ⟨hb _ he, by rw [txtSeq_sameImage he]; exact p1_first _, by dsimp only⟩⟩
  have hs : SameImage p1Sealed (sendTxt x p1Emitting) := ⟨rfl, rfl, rfl, rfl, rfl, rfl, rfl, rfl, rfl, rfl, rfl, rfl⟩
  obtain ⟨y, hy⟩ : ∃ y, mapOffer Config.params (sendTxt x p1Emitting) = .ok y :=
    ⟨_, mapOffer_eq_ok.mpr ⟨hb _ hs, (0, 0), by rw [mapSeq_sameImage hs, sendTxt_mapCur]; decide +kernel, by decide, rfl⟩⟩
  refine ⟨sendTxt x p1Emitting, sendMap y (sendTxt x p1Emitting), ?_, ?_, rfl, rfl⟩
  · unfold txtTurn
    rw [hx]
    rfl
  · unfold mapTurn mapValid
    rw [hy, sendTxt_phase, sendTxt_mapDone, show p1Emitting.mapDone = false from rfl]
    simp only [Bool.and_false, Bool.false_eq_true, if_false]
    rfl

/-- Program P1 meets the invariant at the block's own parameters. -/
theorem p1Sealed_inv : Inv Config.params p1Sealed := by
  have := fwCap_bounds Config.params
  refine ⟨⟨?_, Nat.zero_le _, ?_, rfl, ?_, ?_, fun _ => rfl⟩, ⟨by decide, by decide, fun _ => rfl⟩,
    sealedImage_of_p1 rfl rfl rfl (by decide) (by decide), ⟨rfl, rfl, rfl, rfl⟩⟩
  · show 2 ≤ _
    omega
  · simp [p1Sealed, bufWf, bufWfFrom]
    omega
  · intro k hk
    have hk2 : k < 2 := hk
    interval_cases k <;> rfl
  · intro k hk
    have hk2 : k < 0 := hk
    omega

theorem test_meets_EmissionDrainsToBothArtifacts : ∃ turns : List Turn,
    Inv Config.params p1Sealed ∧ p1Sealed.phase = .sealed ∧ exec (.emit 0) p1Sealed = .next p1Emitting
    ∧ (∀ x ∈ turns, x = .txt ∨ x = .map) ∧ (txtSeq Config.params.hexCase p1Sealed).length ≤ turns.count .txt
    ∧ (mapSeq p1Sealed).length ≤ turns.count .map := by
  refine ⟨List.replicate (txtSeq Config.params.hexCase p1Sealed).length .txt ++ List.replicate (mapSeq p1Sealed).length .map,
    p1Sealed_inv, rfl, rfl, ?_, ?_, ?_⟩
  · intro x hx
    rcases List.mem_append.mp hx with h | h
    · exact .inl (List.eq_of_mem_replicate h)
    · exact .inr (List.eq_of_mem_replicate h)
  · simp
  · simp

theorem test_meets_ReadPortValues : 0xA ≤ (0xA : BitVec 4).toNat ∧ 0xA ≤ (0xF : BitVec 4).toNat := by decide

theorem test_meets_ReadHasNoSideEffect : ({ p1Emitting with sched := [.read 0xF] } : State).sched = .read 0xF :: [] := by decide

theorem test_meets_StepRunsTheDecodedCommand :
    (presenting 0x210000000000000000 p1Sealed).sched = .engine :: [] ∧ (presenting 0x210000000000000000 p1Sealed).cmdIn = [0x210000000000000000]
    ∧ p1Sealed.phase ≠ .emitting ∧ decode 0x210000000000000000 = .ok (.emit 0) := by decide

/-- The clauses for a reserved opcode (0x05 and 0xFE, at the ends of the reserved ranges), outside ERROR and in ERROR. -/
theorem test_meets_StepRunsTheDecodedCommand_reserved :
    (presenting 0x050000000000000000 p1Sealed).sched = .engine :: [] ∧ (presenting 0x050000000000000000 p1Sealed).cmdIn = [0x050000000000000000]
    ∧ (presenting 0xFE0000000000000000 failed).sched = .engine :: [] ∧ (presenting 0xFE0000000000000000 failed).cmdIn = [0xFE0000000000000000]
    ∧ beatOpc 0x050000000000000000 ∉ ([0x00, 0x01, 0x02, 0x03, 0x04, 0x10, 0x11, 0x20, 0x21, 0xFF] : List Byte)
    ∧ beatOpc 0xFE0000000000000000 ∉ ([0x00, 0x01, 0x02, 0x03, 0x04, 0x10, 0x11, 0x20, 0x21, 0xFF] : List Byte)
    ∧ (presenting 0x050000000000000000 p1Sealed).phase ≠ .emitting ∧ (presenting 0x050000000000000000 p1Sealed).phase ≠ .error
    ∧ (presenting 0xFE0000000000000000 failed).phase ≠ .emitting ∧ (presenting 0xFE0000000000000000 failed).phase = .error := by decide

theorem test_meets_BlockWaitsForTheHost :
    State.reset.sched = [] ∧ ({ State.reset with sched := [.engine] } : State).sched = .engine :: [] ∧ State.reset.cmdIn = [] := by decide

/-- A step that leaves the image, and one that resets it. -/
theorem test_meets_ImageIsFrozenUntilReset :
    p1Sealed.phase ≠ .load
    ∧ field State.phase (step (presenting 0x210000000000000000 p1Sealed)) = some .emitting
    ∧ field State.phase (step (presenting 0xFF0000000000000000 p1Sealed)) = some .load := by decide

/-- LOAD to SEALED, SEALED to EMITTING, SEALED to ERROR; the last transfer takes EMITTING to DONE (test_map_turn_last). -/
theorem test_meets_PhaseTransitions :
    field State.phase (step (presenting 0x200000000000000000 (loaded [0x01]))) = some .sealed
    ∧ field State.phase (step (presenting 0x210000000000000000 p1Sealed)) = some .emitting
    ∧ field State.phase (step (presenting 0x200000000000000000 p1Sealed)) = some .error := by decide +kernel

/-- The invariant holds of a state with an image, and a step from it answers. -/
theorem test_meets_StepKeepsInvariant :
    Inv Config.params { p1Sealed with cmdIn := [0x210000000000000000], sched := [.engine] }
    ∧ field State.phase (step { p1Sealed with cmdIn := [0x210000000000000000], sched := [.engine] }) = some .emitting :=
  ⟨p1Sealed_inv, by decide⟩

theorem test_meets_InvariantStatesNeverStop : Inv Config.params p1Sealed := p1Sealed_inv

/-- The same step as for StepKeepsInvariant, with the contents of another reset. -/
theorem test_meets_UnspecifiedBufferBytesAreUnobservable :
    Inv Config.params { p1Sealed with cmdIn := [0x210000000000000000], sched := [.engine] }
    ∧ field State.phase (step { p1Sealed with cmdIn := [0x210000000000000000], sched := [.engine], resets := 7 }) = some .emitting :=
  ⟨p1Sealed_inv, by decide⟩

end Sys2Proof.Tests
end

section
/-! PROOFS. The bytes of the reversed word (00_scope R14). -/

namespace Sys2Proof.Machine

/-- The reversed word is the big-endian word of the bytes taken from the least significant one up. -/
theorem reverseWordBytes_eq_be64 (w : Word) :
    reverseWordBytes w = be64 (byteOf w 0) (byteOf w 1) (byteOf w 2) (byteOf w 3) (byteOf w 4) (byteOf w 5) (byteOf w 6) (byteOf w 7) :=
  rfl

/-- Byte `i` of the reversed word is byte `7 - i`. -/
theorem byteOf_reverseWordBytes (w : Word) (i : Nat) (h : i ≤ 7) : byteOf (reverseWordBytes w) i = byteOf w (7 - i) := by
  rw [reverseWordBytes_eq_be64, byteOf_be64 _ _ _ _ _ _ _ _ i h]
  interval_cases i <;> rfl

/-- 20_memory R68: reversing the big-endian word of 8 bytes gives their little-endian word. -/
theorem reverseWordBytes_be64 (b0 b1 b2 b3 b4 b5 b6 b7 : Byte) :
    reverseWordBytes (be64 b0 b1 b2 b3 b4 b5 b6 b7) = le64 b0 b1 b2 b3 b4 b5 b6 b7 := by
  simp only [reverseWordBytes_eq_be64, byteOf_be64, Nat.reduceLeDiff]
  rfl

/-- Settles O24, by reading the bytes of a big-endian word. -/
theorem reverseWordBytesMirrorsTheBytes : Obligations.ReverseWordBytesMirrorsTheBytes :=
  ⟨byteOf_reverseWordBytes, fun _ => rfl, reverseWordBytes_be64⟩

end Sys2Proof.Machine
end

section
/-! PROOFS. The hexadecimal spellings of the text stream (00_scope R13, 43_emit R194): one digit, the value of a list of digits,
and the three spellings. -/

namespace Sys2Proof.Machine

/-! ### One digit -/

/-- The digits below 10 are consecutive from the character `0`. -/
theorem hexDigit_toNat_of_lt (c : HexCase) {d : BitVec 4} (h : d.toNat < 10) : (hexDigit c d).toNat = 0x30 + d.toNat := by
  rw [hexDigit.eq_def, if_pos h, BitVec.toNat_ofNat]
  omega

/-- The lower-case digits from 10 up are consecutive from the character `a`. -/
theorem hexDigit_lower_toNat {d : BitVec 4} (h : 10 ≤ d.toNat) : (hexDigit .lower d).toNat = 0x61 + (d.toNat - 10) := by
  rw [hexDigit, if_neg (by omega), BitVec.toNat_ofNat]
  omega

/-- The upper-case digits from 10 up are consecutive from the character `A`. -/
theorem hexDigit_upper_toNat {d : BitVec 4} (h : 10 ≤ d.toNat) : (hexDigit .upper d).toNat = 0x41 + (d.toNat - 10) := by
  rw [hexDigit, if_neg (by omega), BitVec.toNat_ofNat]
  omega

/-- The digit zero is the character `0` in both cases. -/
@[simp] theorem hexDigit_zero (c : HexCase) : hexDigit c 0 = 0x30 := rfl

/-! ### The value of a list of digits -/

/-- The number that digits spell after a prefix worth `a`, the most significant digit first. -/
def digitsValue (a : Nat) (ds : List (BitVec 4)) : Nat := ds.foldl (fun a d => 16 * a + d.toNat) a

@[simp] theorem digitsValue_nil (a : Nat) : digitsValue a [] = a := rfl

@[simp] theorem digitsValue_cons (a : Nat) (d : BitVec 4) (ds : List (BitVec 4)) :
    digitsValue a (d :: ds) = digitsValue (16 * a + d.toNat) ds := rfl

/-- Nibble `n` of a word is its base-16 digit of weight `16 ^ n`. -/
theorem toNat_nibble (v : Word) (n : Nat) : (v.extractLsb' (4 * n) 4).toNat = v.toNat / 16 ^ n % 16 := by
  rw [BitVec.extractLsb'_toNat, Nat.shiftRight_eq_div_pow, Nat.pow_mul]

/-- The low `n` nibbles spell the word modulo `16 ^ n`. -/
theorem digitsValue_nibbles (v : Word) (n a : Nat) : digitsValue a (nibbles v n) = 16 ^ n * a + v.toNat % 16 ^ n := by
  induction n generalizing a with
  | zero => simp [nibbles, Nat.mod_one]
  | succ n ih =>
    rw [nibbles, digitsValue_cons, ih, toNat_nibble, Nat.mod_pow_succ]
    ring

/-- Sixteen nibbles spell the whole word. -/
theorem digitsValue_nibbles_word (v : Word) : digitsValue 0 (nibbles v 16) = v.toNat := by
  rw [digitsValue_nibbles, Nat.mul_zero, Nat.zero_add]
  exact Nat.mod_eq_of_lt v.isLt

/-- Leading zeros do not count. -/
theorem digitsValue_dropZeros (ds : List (BitVec 4)) :
    digitsValue 0 (ds.dropWhile (fun d => decide (d = 0))) = digitsValue 0 ds := by
  induction ds with
  | nil => rfl
  | cons d ds ih =>
    by_cases hd : d = 0
    · subst hd
      exact ih
    · rw [List.dropWhile_cons_of_neg (by simpa using hd)]

/-! ### The spellings -/

/-- The shortest spelling's digits spell the word and start with zero only as the single digit of zero (00_scope R13). -/
theorem hexmin_spells (c : HexCase) (v : Word) : ∃ digits : List (BitVec 4), hexmin c v = digits.map (hexDigit c)
    ∧ digitsValue 0 digits = v.toNat ∧ digits ≠ [] ∧ (digits.head? = some 0 → v = 0 ∧ digits = [0]) := by
  have hvalue := (digitsValue_dropZeros (nibbles v 16)).trans (digitsValue_nibbles_word v)
  unfold hexmin
  split
  case h_1 hnil =>
    have hv : v = 0 := BitVec.eq_of_toNat_eq (by rw [← hvalue, hnil]; rfl)
    exact ⟨[0], rfl, by simp [hv], by simp, fun _ => ⟨hv, rfl⟩⟩
  case h_2 ds hne =>
    refine ⟨_, rfl, hvalue, hne, fun hzero => ?_⟩
    have hhead := List.head?_dropWhile_not (fun d : BitVec 4 => decide (d = 0)) (nibbles v 16)
    rw [hzero] at hhead
    exact absurd hhead (by decide)

/-- The padding of the shortest spelling is zeros on the left. -/
theorem hex8_eq_zeros_append (c : HexCase) (v : Word) :
    hex8 c v = List.replicate (8 - (hexmin c v).length) 0x30 ++ hexmin c v := by
  rw [hex8, hexDigit_zero]

/-- The padded spelling has 8 characters, or as many as the shortest spelling when that has more. -/
theorem hex8_length (c : HexCase) (v : Word) : (hex8 c v).length = max 8 (hexmin c v).length := by
  rw [hex8_eq_zeros_append, List.length_append, List.length_replicate]
  omega

/-- A byte is its high nibble and its low nibble. -/
theorem toNat_eq_nibbles (b : Byte) : b.toNat = 16 * (b.extractLsb' 4 4).toNat + (b.extractLsb' 0 4).toNat := by
  rw [BitVec.extractLsb'_toNat, BitVec.extractLsb'_toNat, Nat.shiftRight_eq_div_pow, Nat.shiftRight_zero]
  omega

/-- Settles O28, by the value of the nibbles with the leading zeros dropped. -/
theorem hexSpellings : Obligations.HexSpellings :=
  ⟨fun c v => ⟨hexmin_spells c v, ⟨_, hex8_eq_zeros_append c v⟩, hex8_length c v⟩,
    fun _ b => ⟨_, _, rfl, toNat_eq_nibbles b⟩,
    fun c _ h => hexDigit_toNat_of_lt c h,
    fun _ h => ⟨hexDigit_lower_toNat h, hexDigit_upper_toNat h⟩⟩

end Sys2Proof.Machine
end

section
/-! PROOFS. The invariant of the block (10_state R29 to R34, 42_seal R160 to R170, 43_emit R191, R192, 60_exceptions R264): what
each update of the state does to its four parts, and then every command and every step. -/

namespace Sys2Proof.Machine

/-! ### Counting -/

/-- A counter below the top of its range counts up without wrapping. -/
theorem toNat_succ_of_lt {w : Word} (h : w.toNat + 1 < 2 ^ 64) : (w + 1).toNat = w.toNat + 1 := by
  rw [BitVec.toNat_add]
  exact Nat.mod_eq_of_lt h

/-- Writing the next byte extends the written part of a buffer by one. -/
theorem writtenBelow_bufWrite {m : List Host.Cell} {n : Nat} (h : WrittenBelow m n) (v : Byte) :
    WrittenBelow (bufWrite m n v) (n + 1) := by
  intro k hk
  by_cases hn : k = n
  · simp [hn]
  · rw [bufFind_bufWrite_other m v hn]
    exact h k (by omega)

/-- The padding is written, so the whole padded firmware is (42_seal R165). -/
theorem writtenBelow_paddedBuf {s : State} (h : WrittenBelow s.fwBuf s.fwCnt.toNat) :
    WrittenBelow (paddedBuf s) (padLength s.fwCnt.toNat) := by
  intro k hk
  rw [paddedBuf, bufFind_padZeros]
  split_ifs with hpad
  · rfl
  · exact h k (by omega)

/-! ### The buffers -/

section Buffers

variable {p : Params} {s : State}

/-- Storing the byte FW_BYTE absorbs keeps the buffers' part of the invariant (41_absorb R141). -/
theorem bufferInv_fwByte (hb : BufferInv p s) (b : Byte) (hc : s.fwCnt.toNat < p.fwCap) :
    BufferInv p { s with fwBuf := bufWrite s.fwBuf s.fwCnt.toNat b, fwCnt := s.fwCnt + 1 } := by
  obtain ⟨_, hpl, hfwWf, hplWf, hfwW, hplW, hno⟩ := hb
  have hcap := fwCap_bounds p
  have hcnt : (s.fwCnt + 1).toNat = s.fwCnt.toNat + 1 := toNat_succ_of_lt (by omega)
  refine ⟨?_, hpl, bufWfFrom_bufWrite b hfwWf (Nat.zero_le _) hc, hplWf, ?_, hplW, hno⟩
  · exact hcnt ▸ hc
  · exact hcnt ▸ writtenBelow_bufWrite hfwW b

/-- Storing the byte PL_BYTE absorbs keeps the buffers' part of the invariant (41_absorb R142). -/
theorem bufferInv_plByte (hb : BufferInv p s) (b : Byte) (hp : s.plPresent = true) (hc : s.plCnt.toNat < p.plCap.toNat) :
    BufferInv p { s with plBuf := bufWrite s.plBuf s.plCnt.toNat b, plCnt := s.plCnt + 1 } := by
  obtain ⟨hfw, _, hfwWf, hplWf, hfwW, hplW, _⟩ := hb
  have hcap := p.plCap.isLt
  have hcnt : (s.plCnt + 1).toNat = s.plCnt.toNat + 1 := toNat_succ_of_lt (by omega)
  refine ⟨hfw, ?_, hfwWf, bufWfFrom_bufWrite b hplWf (Nat.zero_le _) hc, hfwW, ?_, ?_⟩
  · exact hcnt ▸ hc
  · exact hcnt ▸ writtenBelow_bufWrite hplW b
  · exact fun hno => absurd (hp.symm.trans hno) (by decide)

/-- Declaring a payload keeps the buffers' part of the invariant (40_config R124). -/
theorem bufferInv_setPladdr (hb : BufferInv p s) (v : Word) :
    BufferInv p { s with pladdr := v, plPresent := true } := by
  obtain ⟨hfw, hpl, hfwWf, hplWf, hfwW, hplW, _⟩ := hb
  exact ⟨hfw, hpl, hfwWf, hplWf, hfwW, hplW, nofun⟩

/-- Padding the firmware keeps the buffers' part of the invariant (42_seal R165). -/
theorem bufferInv_sealedState (hb : BufferInv p s) (hc : padLength s.fwCnt.toNat ≤ p.fwCap) : BufferInv p (sealedState s) := by
  obtain ⟨hfw, hpl, hfwWf, hplWf, hfwW, hplW, hno⟩ := hb
  have hpad := padLength_bounds s.fwCnt.toNat
  refine ⟨hfw, hpl, padZeros_wf hfwWf (by omega), hplWf, fun k hk => ?_, hplW, hno⟩
  exact writtenBelow_paddedBuf hfwW k (Nat.lt_of_lt_of_le hk hpad.2.1)

end Buffers

/-! ### The image -/

/-- SEAL leaves a sealed image (42_seal R160 to R168). -/
theorem sealedImage_sealedState {p : Params} {s : State} (hb : BufferInv p s) (hn : s.fwCnt.toNat ≠ 0)
    (hr : inRange s.flash (padLength s.fwCnt.toNat) s.plPresent s.pladdr s.plCnt = true)
    (hc : padLength s.fwCnt.toNat ≤ p.fwCap) : SealedImage (sealedState s) := by
  obtain ⟨-, -, -, -, hw, -, -⟩ := hb
  have hcap := fwCap_bounds p
  have hsize : (sealedState s).size.toNat = padLength s.fwCnt.toNat := by
    rw [sealedState_size, BitVec.toNat_ofNat]
    exact Nat.mod_eq_of_lt (by omega)
  refine ⟨fun h0 => hn (congrArg BitVec.toNat h0), hsize, ?_, ?_, ?_, fun k hlo hhi => ?_⟩
  · exact hsize ▸ hr
  · exact hsize ▸ writtenBelow_paddedBuf hw
  · rw [firmwareBytes, hsize]
    rfl
  · rw [fwByteAt_sealedState, if_pos ⟨hlo, hsize ▸ hhi⟩]

/-- Raising an error leaves the image. -/
theorem sameImage_raise (e : ErrCause) (opc : Byte) (s : State) : SameImage s (raise e opc s) :=
  ⟨rfl, rfl, rfl, rfl, rfl, rfl, rfl, rfl, rfl, rfl, rfl, rfl⟩

/-- Starting an emission leaves the image. -/
theorem sameImage_startEmission (s : State) : SameImage s (startEmission s) :=
  ⟨rfl, rfl, rfl, rfl, rfl, rfl, rfl, rfl, rfl, rfl, rfl, rfl⟩

/-- Sending an octet leaves the image. -/
theorem sameImage_sendTxt (x : TxtXfer) (s : State) : SameImage s (sendTxt x s) :=
  ⟨rfl, rfl, rfl, rfl, rfl, rfl, rfl, rfl, rfl, rfl, rfl, rfl⟩

/-- Sending a record leaves the image. -/
theorem sameImage_sendMap (x : MapXfer) (s : State) : SameImage s (sendMap x s) :=
  ⟨rfl, rfl, rfl, rfl, rfl, rfl, rfl, rfl, rfl, rfl, rfl, rfl⟩

/-- No sequence of an image within the buffers is as long as a cursor can count. -/
theorem seq_lengths_lt {p : Params} {s : State} (h : imageInBuffers p s = true) (c : HexCase) :
    (txtSeq c s).length < 2 ^ 64 ∧ (mapSeq s).length < 2 ^ 64 := by
  obtain ⟨hsize, hplCnt⟩ := (imageInBuffers_iff p s).mp h
  have hcap := fwCap_bounds p
  have hplCap := p.plCap.isLt
  have hmin := hexmin_length_le c s.flash
  have hmin8 := hex8_length_le c s.pladdr
  cases hp : s.plPresent with
  | false =>
    rw [txtSeq_absent c hp, mapSeq_absent hp]
    constructor <;> simp [imageText, primaryRecords_length] <;> omega
  | true =>
    have := hplCnt hp
    rw [txtSeq_present c hp, mapSeq_present hp]
    constructor <;> simp [imageText, primaryRecords_length] <;> omega

/-! ### The emission -/

/-- A cursor before the end advances by one, and reaches the end exactly on the last element (43_emit R191). -/
theorem cursorAt_succ {n : Nat} {cur : Word} (hlt : cur.toNat < n) (hn : n < 2 ^ 64) :
    CursorAt n (cur + 1) (decide (cur.toNat + 1 = n)) := by
  rw [CursorAt, toNat_succ_of_lt (by omega)]
  exact ⟨hlt, decide_eq_true_iff⟩

/-- The start of a nonempty sequence. -/
theorem cursorAt_zero {n : Nat} (h : 0 < n) : CursorAt n 0 false :=
  ⟨Nat.zero_le n, ⟨nofun, fun h0 => absurd h0 (Nat.ne_of_lt h)⟩⟩

/-- What has been received stays the elements before the cursor when the one at the cursor is added. -/
theorem received_snoc {α : Type} {out q : List α} {k : Nat} {x : α} (h : ∃ before, out = before ++ q.take k)
    (hx : q[k]? = some x) : ∃ before, out ++ [x] = before ++ q.take (k + 1) := by
  obtain ⟨before, rfl⟩ := h
  exact ⟨before, by rw [List.take_add_one, hx, Option.toList_some, List.append_assoc]⟩

/-- The text starts with its directive, so it is not empty. -/
theorem txtSeq_length_pos (c : HexCase) (s : State) : 0 < (txtSeq c s).length := by
  simp [txtSeq, imageText]

/-- The map starts with its header, so it is not empty. -/
theorem mapSeq_length_pos (s : State) : 0 < (mapSeq s).length := by
  rw [mapSeq, List.length_append, primaryRecords_length]
  omega

section Emission

variable {p : Params} {s : State}

/-- EMIT starts with nothing sent (43_emit R190). -/
theorem sentSoFar_startEmission : SentSoFar p (startEmission s) :=
  ⟨cursorAt_zero (txtSeq_length_pos _ _), cursorAt_zero (mapSeq_length_pos _), ⟨s.txtOut, (List.append_nil _).symm⟩,
    ⟨s.mapOut, (List.append_nil _).symm⟩⟩

/-- Sending the octet at the cursor keeps the record of the emission (43_emit R191). -/
theorem sentSoFar_sendTxt {x : TxtXfer} (h : SentSoFar p s) (hd : s.txtDone = false) (hx : txtOffer p s = .ok x) :
    SentSoFar p (sendTxt x s) := by
  obtain ⟨-, hmap, htxtOut, hmapOut⟩ := h
  obtain ⟨hin, hat, hlast⟩ := txtOffer_eq_ok.mp hx
  have hlt := (List.getElem?_eq_some_iff.mp hat).1
  have hlen := (seq_lengths_lt hin p.hexCase).1
  unfold SentSoFar
  rw [txtSeq_sameImage (sameImage_sendTxt x s), mapSeq_sameImage (sameImage_sendTxt x s)]
  refine ⟨?_, hmap, ?_, hmapOut⟩
  · rw [sendTxt_txtDone, hd, Bool.false_or, hlast]
    exact cursorAt_succ hlt hlen
  · rw [sendTxt_txtCur, toNat_succ_of_lt (by omega)]
    refine received_snoc htxtOut ?_
    rw [txtTransfers_getElem?, hat, Option.map_some, ← hlast]

/-- Sending the record at the cursor keeps the record of the emission (43_emit R191). -/
theorem sentSoFar_sendMap {x : MapXfer} (h : SentSoFar p s) (hd : s.mapDone = false) (hx : mapOffer p s = .ok x) :
    SentSoFar p (sendMap x s) := by
  obtain ⟨htxt, -, htxtOut, hmapOut⟩ := h
  obtain ⟨hin, r, hat, -, rfl⟩ := mapOffer_eq_ok.mp hx
  have hlt := (List.getElem?_eq_some_iff.mp hat).1
  have hlen := (seq_lengths_lt hin p.hexCase).2
  unfold SentSoFar
  rw [txtSeq_sameImage (sameImage_sendMap _ s), mapSeq_sameImage (sameImage_sendMap _ s)]
  refine ⟨htxt, ?_, htxtOut, ?_⟩
  · rw [sendMap_mapDone, hd, Bool.false_or]
    exact cursorAt_succ hlt hlen
  · rw [sendMap_mapCur, toNat_succ_of_lt (by omega)]
    refine received_snoc hmapOut ?_
    rw [mapTransfers_getElem?, hat, Option.map_some]

/-! ### The invariant in each phase -/

/-- Outside ERROR no error is recorded (60_exceptions R264). -/
theorem errorInv_iff_of_ne (h : s.phase ≠ .error) : ErrorInv s ↔ s.errCode = 0 ∧ s.errOpc = 0 := by
  constructor
  · rintro ⟨hiff, -, hopc⟩
    have h0 : s.errCode = 0 := not_not.mp fun hne => h (hiff.mpr hne)
    exact ⟨h0, hopc h0⟩
  · rintro ⟨h0, hopc⟩
    exact ⟨⟨fun he => absurd he h, fun hne => absurd h0 hne⟩, by rw [h0]; decide, fun _ => hopc⟩

/-- The invariant in LOAD. -/
theorem inv_load_iff (h : s.phase = .load) :
    Inv p s ↔ BufferInv p s ∧ (s.errCode = 0 ∧ s.errOpc = 0) ∧ Unsealed s
      ∧ s.txtCur = 0 ∧ s.mapCur = 0 ∧ s.txtDone = false ∧ s.mapDone = false := by
  rw [Inv, errorInv_iff_of_ne (by simp [h]), ImageInv, EmissionInv, h]

/-- The invariant in SEALED. -/
theorem inv_sealed_iff (h : s.phase = .sealed) :
    Inv p s ↔ BufferInv p s ∧ (s.errCode = 0 ∧ s.errOpc = 0) ∧ SealedImage s
      ∧ s.txtCur = 0 ∧ s.mapCur = 0 ∧ s.txtDone = false ∧ s.mapDone = false := by
  rw [Inv, errorInv_iff_of_ne (by simp [h]), ImageInv, EmissionInv, h]

/-- The invariant in EMITTING. -/
theorem inv_emitting_iff (h : s.phase = .emitting) :
    Inv p s ↔ BufferInv p s ∧ (s.errCode = 0 ∧ s.errOpc = 0) ∧ SealedImage s
      ∧ SentSoFar p s ∧ (s.txtDone && s.mapDone) = false := by
  rw [Inv, errorInv_iff_of_ne (by simp [h]), ImageInv, EmissionInv, h]

/-- The invariant in DONE. -/
theorem inv_done_iff (h : s.phase = .done) :
    Inv p s ↔ BufferInv p s ∧ (s.errCode = 0 ∧ s.errOpc = 0) ∧ SealedImage s
      ∧ SentSoFar p s ∧ (s.txtDone && s.mapDone) = true := by
  rw [Inv, errorInv_iff_of_ne (by simp [h]), ImageInv, EmissionInv, h]

/-- The invariant in ERROR. -/
theorem inv_error_iff (h : s.phase = .error) :
    Inv p s ↔ BufferInv p s ∧ ErrorInv s ∧ (Unsealed s ∨ SealedImage s) := by
  rw [Inv, ImageInv, EmissionInv, h, and_true]

/-- A SEALED, EMITTING or DONE state of the invariant holds a sealed image and no error. -/
theorem inv_frozen (hi : Inv p s) (hf : frozenPhase s.phase = true) :
    BufferInv p s ∧ (s.errCode = 0 ∧ s.errOpc = 0) ∧ SealedImage s := by
  cases h : s.phase with
  | load | error => simp [h, frozenPhase] at hf
  | sealed =>
    obtain ⟨hb, he, himg, -⟩ := (inv_sealed_iff h).mp hi
    exact ⟨hb, he, himg⟩
  | emitting =>
    obtain ⟨hb, he, himg, -⟩ := (inv_emitting_iff h).mp hi
    exact ⟨hb, he, himg⟩
  | done =>
    obtain ⟨hb, he, himg, -⟩ := (inv_done_iff h).mp hi
    exact ⟨hb, he, himg⟩

/-- An emission's record is all the invariant asks besides the image, once the phase is DONE exactly with both done bits set
(43_emit R192). -/
theorem inv_of_sentSoFar (hph : s.phase = if s.txtDone && s.mapDone then .done else .emitting) (hb : BufferInv p s)
    (he : s.errCode = 0 ∧ s.errOpc = 0) (himg : SealedImage s) (hsent : SentSoFar p s) : Inv p s := by
  cases hd : s.txtDone && s.mapDone with
  | false => exact (inv_emitting_iff (by simpa [hd] using hph)).mpr ⟨hb, he, himg, hsent, hd⟩
  | true => exact (inv_done_iff (by simpa [hd] using hph)).mpr ⟨hb, he, himg, hsent, hd⟩

/-! ### What each update does to the invariant -/

/-- The invariant says nothing of what the HOST has still to do or has read (log entries 1 and 3). -/
theorem inv_hostSide (hi : Inv p s) (sched : List Turn) (cmdIn : List Beat) (rdOut : List RdXfer) :
    Inv p { s with sched := sched, cmdIn := cmdIn, rdOut := rdOut } := hi

/-- The block after a reset meets the invariant, whatever the HOST holds and whatever the buffers' unspecified contents. -/
theorem inv_resetBlock (s : State) : Inv p (resetBlock s) := by
  refine (inv_load_iff rfl).mpr ⟨⟨Nat.zero_le _, Nat.zero_le _, (reset_bufWf _).1, (reset_bufWf _).2, ?_, ?_, fun _ => rfl⟩,
    ⟨rfl, rfl⟩, ⟨rfl, rfl⟩, rfl, rfl, rfl, rfl⟩
  all_goals exact fun k hk => absurd hk (Nat.not_lt_zero k)

/-- Every cause has a code from 1 to 7 (60_exceptions R261). -/
theorem errorCode_range (e : ErrCause) : errorCode e ≠ 0 ∧ (errorCode e).toNat ≤ 7 := by
  cases e <;> decide

/-- Taking an error keeps the invariant, in every phase in which a beat can raise one (60_exceptions R264). -/
theorem inv_raise (hi : Inv p s) (h : s.phase ≠ .error) (e : ErrCause) (opc : Byte) : Inv p (raise e opc s) := by
  obtain ⟨hb, he, himg, -⟩ := hi
  obtain ⟨h0, -⟩ := (errorInv_iff_of_ne h).mp he
  have hcode : (raise e opc s).errCode = errorCode e := by rw [raise_errCode, if_pos h0]
  refine (inv_error_iff rfl).mpr ⟨hb, ?_, ?_⟩
  · rw [ErrorInv, hcode]
    exact ⟨iff_of_true rfl (errorCode_range e).1, (errorCode_range e).2, fun h0 => absurd h0 (errorCode_range e).1⟩
  · rw [ImageInv] at himg
    cases hph : s.phase <;> rw [hph] at himg
    case load => exact .inl himg
    case error => exact absurd hph h
    all_goals exact .inr (sealedImage_sameImage (sameImage_raise e opc s) himg)

/-- A SEAL that raises no error keeps the invariant (42_seal R160 to R170). -/
theorem inv_sealedState (hi : Inv p s) (h : s.phase = .load) (hn : s.fwCnt.toNat ≠ 0)
    (hr : inRange s.flash (padLength s.fwCnt.toNat) s.plPresent s.pladdr s.plCnt = true)
    (hc : padLength s.fwCnt.toNat ≤ p.fwCap) : Inv p (sealedState s) := by
  obtain ⟨hb, he, -, hcur⟩ := (inv_load_iff h).mp hi
  exact (inv_sealed_iff rfl).mpr ⟨bufferInv_sealedState hb hc, he, sealedImage_sealedState hb hn hr hc, hcur⟩

/-- EMIT keeps the invariant (43_emit R190). -/
theorem inv_startEmission (hi : Inv p s) (h : s.phase = .sealed ∨ s.phase = .done) : Inv p (startEmission s) := by
  obtain ⟨hb, he, himg⟩ := inv_frozen hi (by rcases h with h | h <;> rw [h] <;> rfl)
  exact inv_of_sentSoFar rfl hb he (sealedImage_sameImage (sameImage_startEmission s) himg) sentSoFar_startEmission

/-- A TXT transfer keeps the invariant (43_emit R191, R192). -/
theorem inv_sendTxt {x : TxtXfer} (hi : Inv p s) (h : s.phase = .emitting) (hd : s.txtDone = false)
    (hx : txtOffer p s = .ok x) : Inv p (sendTxt x s) := by
  obtain ⟨hb, he, himg, hsent, -⟩ := (inv_emitting_iff h).mp hi
  refine inv_of_sentSoFar ?_ hb he (sealedImage_sameImage (sameImage_sendTxt x s) himg) (sentSoFar_sendTxt hsent hd hx)
  rw [sendTxt_phase, sendTxt_txtDone, sendTxt_mapDone, h]

/-- A MAP transfer keeps the invariant (43_emit R191, R192). -/
theorem inv_sendMap {x : MapXfer} (hi : Inv p s) (h : s.phase = .emitting) (hd : s.mapDone = false)
    (hx : mapOffer p s = .ok x) : Inv p (sendMap x s) := by
  obtain ⟨hb, he, himg, hsent, -⟩ := (inv_emitting_iff h).mp hi
  refine inv_of_sentSoFar ?_ hb he (sealedImage_sameImage (sameImage_sendMap x s) himg) (sentSoFar_sendMap hsent hd hx)
  rw [sendMap_phase, sendMap_txtDone, sendMap_mapDone, h]

end Emission

/-! ### Every command and every step -/

/-- Every command keeps the invariant. -/
theorem execCase_keeps_inv {i : Instr} {s t : State} (hx : ExecCase i s (.next t)) (hi : Inv Config.params s) :
    Inv Config.params t := by
  cases hx with
  | same => exact hi
  | error e _ hne => exact inv_raise hi hne e _
  | setTarget v h | setBoot v h | setFlash v h =>
    refine (inv_load_iff ?_).mpr ((inv_load_iff h).mp hi)
    exact h
  | setPladdr v h =>
    obtain ⟨hb, hrest⟩ := (inv_load_iff h).mp hi
    refine (inv_load_iff ?_).mpr ⟨bufferInv_setPladdr hb v, hrest⟩
    exact h
  | fwByte b h hc =>
    obtain ⟨hb, hrest⟩ := (inv_load_iff h).mp hi
    refine (inv_load_iff ?_).mpr ⟨bufferInv_fwByte hb b hc, hrest⟩
    exact h
  | plByte b h hp hc =>
    obtain ⟨hb, hrest⟩ := (inv_load_iff h).mp hi
    refine (inv_load_iff ?_).mpr ⟨bufferInv_plByte hb b hp hc, hrest⟩
    exact h
  | sealImage h hn hr hc => exact inv_sealedState hi h hn hr hc
  | emit h => exact inv_startEmission hi h
  | reset _ => exact inv_resetBlock s

/-- Settles O51, by the cases of a step: each update it can make keeps the four parts of the invariant. -/
theorem stepKeepsInvariant : Obligations.StepKeepsInvariant := by
  intro s t hi hstep
  cases step_stepCase hstep with
  | idle _ => exact hi
  | pass x rest _ => exact inv_hostSide hi rest s.cmdIn s.rdOut
  | beat w ws rest i _ _ _ _ _ hx => exact execCase_keeps_inv hx (inv_hostSide hi rest ws s.rdOut)
  | discard w ws rest _ _ => exact inv_hostSide hi rest ws s.rdOut
  | illegal w ws rest _ _ _ hne => exact inv_raise (inv_hostSide hi rest ws s.rdOut) hne .illegalOpcode (beatOpc w)
  | txt x rest _ hp hd hx => exact inv_sendTxt (inv_hostSide hi rest s.cmdIn s.rdOut) hp hd hx
  | map x rest _ hp hd hx => exact inv_sendMap (inv_hostSide hi rest s.cmdIn s.rdOut) hp hd hx
  | read idx rest _ => exact inv_hostSide hi rest s.cmdIn _
  | rst lost rest _ => exact inv_hostSide (inv_resetBlock { s with sched := rest }) rest _ s.rdOut

/-- Settles O50, by the values of reset. -/
theorem resetMeetsInvariant : Obligations.ResetMeetsInvariant :=
  inv_resetBlock State.reset

end Sys2Proof.Machine
end

section
/-! PROOFS. The turns: the step of each turn, the two emitters and their independence (43_emit R191, R192; 10_state R46 to R50), and
the phases and the image along a step (10_state R22, R23). -/

namespace Sys2Proof.Machine

/-! ### One turn at a time -/

/-- A step takes the next turn off the list and performs it. -/
theorem step_of_sched {s : State} {x : Turn} {rest : List Turn} (h : s.sched = x :: rest) :
    step s = takeTurn x { s with sched := rest } := by
  rw [step, nextTurn, h]

/-- With no turn left a step waits. -/
theorem step_of_no_turn {s : State} (h : s.sched = []) : step s = .next s := by
  rw [step, nextTurn, h]

/-- In EMITTING no beat is accepted (10_state R46). -/
theorem engineTurn_of_emitting {s : State} (h : s.phase = .emitting) : engineTurn s = .next s := by
  simp [engineTurn, cmdReady, h]

/-- With no beat presented the ENGINE waits (70_reset R303). -/
theorem engineTurn_of_no_beat {s : State} (h : s.cmdIn = []) : engineTurn s = .next s := by
  simp [engineTurn, h]

/-- In every other phase the oldest presented beat is executed (10_state R46). -/
theorem engineTurn_of_beat {s : State} {w : Beat} {ws : List Beat} (h : s.phase ≠ .emitting) (hw : s.cmdIn = w :: ws) :
    engineTurn s = executeBeat w { s with cmdIn := ws } := by
  simp [engineTurn, cmdReady, h, hw]

/-- The TXT channel is active exactly in EMITTING before its last octet (10_state R48). -/
theorem txtValid_iff {s : State} : txtValid s = true ↔ s.phase = .emitting ∧ s.txtDone = false := by
  simp [txtValid]

/-- The MAP channel is active exactly in EMITTING before its last record (10_state R49). -/
theorem mapValid_iff {s : State} : mapValid s = true ↔ s.phase = .emitting ∧ s.mapDone = false := by
  simp [mapValid]

/-- What a TXT turn that answers a next state has done (43_emit R191). -/
theorem txtTurn_eq_next {p : Params} {s t : State} :
    txtTurn p s = .next t ↔
      (txtValid s = false ∧ t = s) ∨ (txtValid s = true ∧ ∃ x, txtOffer p s = .ok x ∧ t = sendTxt x s) := by
  rcases txtTurn_cases p s with ⟨hv, e⟩ | ⟨hv, f, hf, e⟩ | ⟨hv, x, hx, e⟩
  · simp [hv, e, eq_comm]
  · simp [hv, hf, e]
  · simp [hv, hx, e, eq_comm]

/-- What a MAP turn that answers a next state has done (43_emit R191). -/
theorem mapTurn_eq_next {p : Params} {s t : State} :
    mapTurn p s = .next t ↔
      (mapValid s = false ∧ t = s) ∨ (mapValid s = true ∧ ∃ x, mapOffer p s = .ok x ∧ t = sendMap x s) := by
  rcases mapTurn_cases p s with ⟨hv, e⟩ | ⟨hv, f, hf, e⟩ | ⟨hv, x, hx, e⟩
  · simp [hv, e, eq_comm]
  · simp [hv, hf, e]
  · simp [hv, hx, e, eq_comm]

/-- The image says nothing of what the HOST has still to do or has read (log entries 1 and 3). -/
theorem sameImage_hostSide (s : State) (sched : List Turn) (cmdIn : List Beat) (rdOut : List RdXfer) :
    SameImage s { s with sched := sched, cmdIn := cmdIn, rdOut := rdOut } :=
  ⟨rfl, rfl, rfl, rfl, rfl, rfl, rfl, rfl, rfl, rfl, rfl, rfl⟩

/-! ### The emitters' turns -/

/-- Settles O38, by the element the emitter offers at its cursor. -/
theorem txtTurnSendsTheOctetAtTheCursor : Obligations.TxtTurnSendsTheOctetAtTheCursor := by
  intro s rest h
  rw [step_of_sched h]
  constructor
  · intro hidle
    refine txtTurn_eq_next.mpr (.inl ⟨?_, rfl⟩)
    rcases hidle with hp | hd
    · simp [txtValid, hp]
    · simp [txtValid, hd]
  · intro o hp hd hsize hpl hat
    refine txtTurn_eq_next.mpr (.inr ⟨txtValid_iff.mpr ⟨hp, hd⟩, ?_⟩)
    refine ⟨⟨o, decide (s.txtCur.toNat + 1 = (txtSeq Config.params.hexCase s).length)⟩,
      txtOffer_eq_ok.mpr ⟨(imageInBuffers_iff _ _).mpr ⟨hsize, hpl⟩, hat, rfl⟩, ?_⟩
    simp [sendTxt, closeEmission, hp, hd]

/-- Settles O39, by the record the emitter offers at its cursor. -/
theorem mapTurnSendsTheRecordAtTheCursor : Obligations.MapTurnSendsTheRecordAtTheCursor := by
  intro s rest h
  rw [step_of_sched h]
  constructor
  · intro hidle
    refine mapTurn_eq_next.mpr (.inl ⟨?_, rfl⟩)
    rcases hidle with hp | hd
    · simp [mapValid, hp]
    · simp [mapValid, hd]
  · intro a b hp hd hsize hpl hat ha
    refine mapTurn_eq_next.mpr (.inr ⟨mapValid_iff.mpr ⟨hp, hd⟩, ?_⟩)
    refine ⟨⟨BitVec.ofNat 64 a, b, decide (s.mapCur.toNat + 1 = (mapSeq s).length)⟩,
      mapOffer_eq_ok.mpr ⟨(imageInBuffers_iff _ _).mpr ⟨hsize, hpl⟩, (a, b), hat, ha, rfl⟩, ?_⟩
    simp [sendMap, closeEmission, hp, hd, and_comm]

/-! ### The emitters' independence -/

section Independence

variable {p : Params} {s t : State}

/-- Whether an image is within the buffers depends on the image alone. -/
theorem imageInBuffers_sameImage (h : SameImage s t) : imageInBuffers p t = imageInBuffers p s := by
  obtain ⟨-, -, -, -, hpl, -, hplCnt, hsize, -⟩ := h
  rw [imageInBuffers, imageInBuffers, hpl, hplCnt, hsize]

/-- What TXT offers depends on the image and its own cursor. -/
theorem txtOffer_sameImage (h : SameImage s t) (hc : t.txtCur = s.txtCur) : txtOffer p t = txtOffer p s := by
  rw [txtOffer, txtOffer, imageInBuffers_sameImage h, txtSeq_sameImage h, hc]

/-- What MAP offers depends on the image and its own cursor. -/
theorem mapOffer_sameImage (h : SameImage s t) (hc : t.mapCur = s.mapCur) : mapOffer p t = mapOffer p s := by
  rw [mapOffer, mapOffer, imageInBuffers_sameImage h, mapSeq_sameImage h, hc]

/-- A TXT transfer leaves the MAP channel as active as it was: it can end the emission only once MAP has finished. -/
theorem mapValid_sendTxt (x : TxtXfer) (h : txtValid s = true) : mapValid (sendTxt x s) = mapValid s := by
  obtain ⟨hp, -⟩ := txtValid_iff.mp h
  cases hm : s.mapDone <;> simp [mapValid, hm, hp]

/-- A MAP transfer leaves the TXT channel as active as it was: it can end the emission only once TXT has finished. -/
theorem txtValid_sendMap (x : MapXfer) (h : mapValid s = true) : txtValid (sendMap x s) = txtValid s := by
  obtain ⟨hp, -⟩ := mapValid_iff.mp h
  cases ht : s.txtDone <;> simp [txtValid, ht, hp]

/-- Two transfers leave the same in either order. -/
theorem sendMap_sendTxt (x : TxtXfer) (y : MapXfer) (ht : txtValid s = true) (hm : mapValid s = true) :
    sendMap y (sendTxt x s) = sendTxt x (sendMap y s) := by
  obtain ⟨hp, htd⟩ := txtValid_iff.mp ht
  obtain ⟨-, hmd⟩ := mapValid_iff.mp hm
  simp [sendMap, sendTxt, closeEmission, hp, htd, hmd]

end Independence

/-- Settles O40, by whether each channel is active: neither turn changes that of the other, nor what the other offers. -/
theorem emittersCommute : Obligations.EmittersCommute := by
  intro s t u ht hu
  rcases txtTurn_eq_next.mp ht with ⟨htv, rfl⟩ | ⟨htv, x, hx, rfl⟩
  · refine ⟨u, hu, txtTurn_eq_next.mpr (.inl ⟨?_, rfl⟩)⟩
    rcases mapTurn_eq_next.mp hu with ⟨-, rfl⟩ | ⟨hmv, y, -, rfl⟩
    · exact htv
    · rw [txtValid_sendMap y hmv, htv]
  · rcases mapTurn_eq_next.mp hu with ⟨hmv, rfl⟩ | ⟨hmv, y, hy, rfl⟩ <;> rw [mapValid_sendTxt x htv] at hmv
    · exact ⟨s, mapTurn_eq_next.mpr (.inl ⟨hmv, rfl⟩), ht⟩
    · rw [mapOffer_sameImage (sameImage_sendTxt x s) rfl] at hy
      refine ⟨sendMap y s, mapTurn_eq_next.mpr (.inr ⟨hmv, y, hy, rfl⟩), txtTurn_eq_next.mpr (.inr ⟨?_, x, ?_, ?_⟩)⟩
      · rw [txtValid_sendMap y hmv, htv]
      · rw [txtOffer_sameImage (sameImage_sendMap y s) rfl, hx]
      · exact sendMap_sendTxt x y htv hmv

/-! ### The image and the phase along a step -/

/-- Outside LOAD a command leaves the image or resets the block. -/
theorem execCase_image {i : Instr} {s t : State} (hx : ExecCase i s (.next t)) (hp : s.phase ≠ .load) :
    SameImage s t ∨ AfterReset s t := by
  cases hx with
  | same => exact .inl (sameImage_hostSide s s.sched s.cmdIn s.rdOut)
  | error e _ _ => exact .inl (sameImage_raise e _ s)
  | emit _ => exact .inl (sameImage_startEmission s)
  | reset _ => exact .inr (afterReset_resetBlock s)
  | setTarget _ h | setBoot _ h | setFlash _ h | setPladdr _ h | fwByte _ h _ | plByte _ h _ _ | sealImage h _ _ _ =>
    exact absurd h hp

/-- Settles O48, by the cases of a step. -/
theorem imageIsFrozenUntilReset : Obligations.ImageIsFrozenUntilReset := by
  intro s t hp hstep
  cases step_stepCase hstep with
  | idle _ => exact .inl (sameImage_hostSide s s.sched s.cmdIn s.rdOut)
  | pass x rest _ => exact .inl (sameImage_hostSide s rest s.cmdIn s.rdOut)
  | beat w ws rest i _ _ _ _ _ hx => exact (execCase_image hx hp :)
  | discard w ws rest _ _ => exact .inl (sameImage_hostSide s rest ws s.rdOut)
  | illegal w ws rest _ _ _ _ => exact .inl (sameImage_raise _ _ { s with sched := rest, cmdIn := ws })
  | txt x rest _ _ _ _ => exact .inl (sameImage_sendTxt x { s with sched := rest })
  | map x rest _ _ _ _ => exact .inl (sameImage_sendMap x { s with sched := rest })
  | read idx rest _ => exact .inl (sameImage_hostSide s rest s.cmdIn _)
  | rst lost rest _ => exact .inr (afterReset_rst s rest _)

/-- The phase changes a step may make (10_state R22, 30_encoding R96, 43_emit R192). -/
def PhaseChange (a b : Phase) : Prop :=
  b = a ∨ (a = .load ∧ b = .sealed) ∨ ((a = .sealed ∨ a = .done) ∧ b = .emitting) ∨ (a = .emitting ∧ b = .done)
    ∨ ((a = .load ∨ a = .sealed ∨ a = .done) ∧ b = .error)

/-- An error is taken only from LOAD, SEALED or DONE. -/
theorem phaseChange_error {a : Phase} (h1 : a ≠ .emitting) (h2 : a ≠ .error) : PhaseChange a .error := by
  cases a <;> simp_all [PhaseChange]

/-- A transfer stays in EMITTING or ends the emission. -/
theorem phaseChange_transfer {a : Phase} (h : a = .emitting) (last : Bool) : PhaseChange a (if last then .done else a) := by
  cases last <;> simp [PhaseChange, h]

/-- A command changes the phase as the table allows, or resets the block. -/
theorem execCase_phase {i : Instr} {s t : State} (hx : ExecCase i s (.next t)) :
    PhaseChange s.phase t.phase ∨ AfterReset s t := by
  cases hx with
  | same | setTarget _ _ | setBoot _ _ | setFlash _ _ | setPladdr _ _ | fwByte _ _ _ | plByte _ _ _ _ => exact .inl (.inl rfl)
  | error e h1 h2 => exact .inl (phaseChange_error h1 h2)
  | sealImage h _ _ _ => exact .inl (.inr (.inl ⟨h, rfl⟩))
  | emit h => exact .inl (.inr (.inr (.inl ⟨h, rfl⟩)))
  | reset _ => exact .inr (afterReset_resetBlock s)

/-- A step changes the phase as the table allows, or resets the block. -/
theorem step_phase {s t : State} (hstep : step s = .next t) : PhaseChange s.phase t.phase ∨ AfterReset s t := by
  cases step_stepCase hstep with
  | idle _ | pass _ _ _ | discard _ _ _ _ _ | read _ _ _ => exact .inl (.inl rfl)
  | beat w ws rest i _ _ _ _ _ hx => exact (execCase_phase hx :)
  | illegal w ws rest _ _ h1 h2 => exact .inl (phaseChange_error h1 h2)
  | txt x rest _ hp _ _ => exact .inl (phaseChange_transfer hp _)
  | map x rest _ hp _ _ => exact .inl (phaseChange_transfer hp _)
  | rst lost rest _ => exact .inr (afterReset_rst s rest _)

/-- Settles O49, by the cases of a step. -/
theorem phaseTransitions : Obligations.PhaseTransitions := by
  intro s t hstep
  simpa only [PhaseChange, or_assoc] using step_phase hstep

/-! ### The ports -/

/-- Settles O8, by what `cmd_ready` and an ENGINE turn in EMITTING are. -/
theorem beatsAreHeldDuringEmission : Obligations.BeatsAreHeldDuringEmission := by
  refine ⟨fun s => decide_eq_true_iff, fun s rest hp hsched => ?_⟩
  rw [step_of_sched hsched]
  exact engineTurn_of_emitting hp

/-- Settles O46, by the command the oldest beat decodes to. -/
theorem stepRunsTheDecodedCommand : Obligations.StepRunsTheDecodedCommand := by
  intro s w ws rest hsched hcmd hp
  have hstep : step s = executeBeat w { s with sched := rest, cmdIn := ws } :=
    (step_of_sched hsched).trans (engineTurn_of_beat hp hcmd)
  refine ⟨hstep, fun i hd => ?_, fun hres => ?_⟩
  · rw [hstep, executeBeat, hd]
  · rw [hstep, executeBeat, decode_of_reserved hres]
    rcases reservedBeat_cases (beatOpc w) { s with sched := rest, cmdIn := ws } with ⟨hph, e⟩ | ⟨-, hne, e⟩
    · exact ⟨fun hne => absurd (hph.resolve_left hp) hne, fun _ => e⟩
    · exact ⟨fun _ => e, fun he => absurd he hne⟩

/-- Settles O44, by what a read turn leaves. -/
theorem readHasNoSideEffect : Obligations.ReadHasNoSideEffect := by
  intro s idx rest hsched
  refine ⟨_, step_of_sched hsched, ⟨sameImage_hostSide s rest s.cmdIn _, ?_⟩, rfl, rfl, rfl, rfl, rfl⟩
  exact ⟨rfl, rfl, rfl, rfl, rfl, rfl, rfl⟩

end Sys2Proof.Machine
end

section
/-! PROOFS. The read port, the fields of STATUS, the levels and the values at reset (10_state R37 to R39, R45, R51). -/

namespace Sys2Proof.Machine

/-! ### The fields of STATUS (10_state R37), each above the fields that stand below it -/

@[simp] theorem statusWord_phase (s : State) : (statusWord s).extractLsb' 0 3 = s.phase.code :=
  BitVec.extractLsb'_append_eq_right

@[simp] theorem statusWord_plPresent (s : State) : (statusWord s).extractLsb' 3 1 = BitVec.ofBool s.plPresent := by
  rw [statusWord, BitVec.extractLsb'_append_eq_of_le (by decide)]
  exact BitVec.extractLsb'_append_eq_right

@[simp] theorem statusWord_txtDone (s : State) : (statusWord s).extractLsb' 4 1 = BitVec.ofBool s.txtDone := by
  rw [statusWord]
  iterate 2 rw [BitVec.extractLsb'_append_eq_of_le (by decide)]
  exact BitVec.extractLsb'_append_eq_right

@[simp] theorem statusWord_mapDone (s : State) : (statusWord s).extractLsb' 5 1 = BitVec.ofBool s.mapDone := by
  rw [statusWord]
  iterate 3 rw [BitVec.extractLsb'_append_eq_of_le (by decide)]
  exact BitVec.extractLsb'_append_eq_right

@[simp] theorem statusWord_reserved_low (s : State) : (statusWord s).extractLsb' 6 2 = 0 := by
  rw [statusWord]
  iterate 4 rw [BitVec.extractLsb'_append_eq_of_le (by decide)]
  exact BitVec.extractLsb'_append_eq_right

@[simp] theorem statusWord_errCode (s : State) : (statusWord s).extractLsb' 8 8 = s.errCode := by
  rw [statusWord]
  iterate 5 rw [BitVec.extractLsb'_append_eq_of_le (by decide)]
  exact BitVec.extractLsb'_append_eq_right

@[simp] theorem statusWord_errOpc (s : State) : (statusWord s).extractLsb' 16 8 = s.errOpc := by
  rw [statusWord]
  iterate 6 rw [BitVec.extractLsb'_append_eq_of_le (by decide)]
  exact BitVec.extractLsb'_append_eq_right

@[simp] theorem statusWord_reserved_high (s : State) : (statusWord s).extractLsb' 24 40 = 0 := by
  rw [statusWord]
  iterate 7 rw [BitVec.extractLsb'_append_eq_of_le (by decide)]
  exact BitVec.extractLsb'_eq_self

/-! ### The read port -/

/-- The reserved indices read 0 (10_state R39). -/
theorem readPort_reserved (p : Params) (s : State) {idx : BitVec 4} (h : 0xA ≤ idx.toNat) : readPort p s idx = 0 := by
  unfold readPort
  split
  case h_11 => rfl
  all_goals omega

/-- CAPS is the capacities in every state (10_state R38). -/
theorem readPort_caps (p : Params) (s : State) : readPort p s 0x9 = capsWord p := rfl

/-- The low half of CAPS holds the whole of FW_CAP (10_state R38). -/
theorem capsWord_fwCap (p : Params) : ((capsWord p).extractLsb' 0 32).toNat = p.fwCap := by
  have hcap := fwCap_bounds p
  rw [capsWord, BitVec.extractLsb'_append_eq_right, BitVec.toNat_ofNat]
  exact Nat.mod_eq_of_lt (by omega)

/-- The high half of CAPS holds PL_CAP (10_state R38). -/
theorem capsWord_plCap (p : Params) : (capsWord p).extractLsb' 32 32 = p.plCap :=
  BitVec.extractLsb'_append_eq_left

/-- Settles O42, index by index and field by field. -/
theorem readPortValues : Obligations.ReadPortValues := fun p s =>
  ⟨rfl, rfl, rfl, rfl, rfl, rfl, rfl, rfl, rfl, rfl, fun _ h => readPort_reserved p s h, statusWord_phase s, rfl, rfl, rfl, rfl, rfl,
    statusWord_plPresent s, statusWord_txtDone s, statusWord_mapDone s, statusWord_reserved_low s, statusWord_errCode s,
    statusWord_errOpc s, statusWord_reserved_high s⟩

/-- Settles O43, by the two halves of CAPS. -/
theorem capsReportsTheCapacities : Obligations.CapsReportsTheCapacities := fun p s _ =>
  ⟨readPort_caps p s ▸ capsWord_fwCap p, readPort_caps p s ▸ congrArg BitVec.toNat (capsWord_plCap p), rfl⟩

/-! ### The levels -/

/-- `done` is the phase DONE (10_state R51). -/
theorem doneLevel_iff (s : State) : doneLevel s = true ↔ s.phase = .done := decide_eq_true_iff

/-- `err` is the phase ERROR (10_state R51). -/
theorem errLevel_iff (s : State) : errLevel s = true ↔ s.phase = .error := decide_eq_true_iff

/-- Settles O45. -/
theorem levelsFollowThePhase : Obligations.LevelsFollowThePhase := fun s => ⟨doneLevel_iff s, errLevel_iff s⟩

/-- Settles O23, by evaluating the reset state. -/
theorem resetValues : Obligations.ResetValues := by
  unfold Obligations.ResetValues
  decide

end Sys2Proof.Machine
end

section
/-! PROOFS. The unspecified contents of the buffers are unobservable (10_state R42, R45): an operation on a state with other contents
answers the same, up to the model's own count of resets (log entry 5). -/

namespace Sys2Proof.Machine

/-- The same state with the unspecified contents that the reset of number `n` leaves. -/
abbrev withResets (n : Nat) (s : State) : State := { s with resets := n }

/-- `r'` answers a next state wherever `r` does, and the same one up to the count of resets. -/
def SameAnswer (r r' : Result) : Prop := ∀ t, r = .next t → ∃ m, r' = .next (withResets m t)

/-- A next state of the same contents is the same answer. -/
theorem sameAnswer_next (m : Nat) (t : State) : SameAnswer (.next t) (.next (withResets m t)) := by
  rintro _ ⟨⟩
  exact ⟨m, rfl⟩

/-- A stop answers no next state. -/
theorem sameAnswer_fault (f : Fault) (r : Result) : SameAnswer (.fault f) r := nofun

/-! ### Written bytes -/

/-- A written range reads the same whatever the unspecified contents. -/
theorem bufBytes_of_written {m : List Host.Cell} {n : Nat} (h : WrittenBelow m n) (f g : Nat → Byte) :
    bufBytes f m 0 n = bufBytes g m 0 n :=
  bufBytes_congr fun i hi => bufRead_written (h (0 + i) (by omega)) f g

section Contents

variable {s : State} (n : Nat)

/-- Padding an absorbed firmware gives the same bytes. -/
theorem paddedFirmware_withResets (h : WrittenBelow s.fwBuf s.fwCnt.toNat) :
    paddedFirmware (withResets n s) = paddedFirmware s :=
  bufBytes_of_written (writtenBelow_paddedBuf h) _ _

/-- SEAL of an absorbed firmware leaves the same image. -/
theorem sealedState_withResets (h : WrittenBelow s.fwBuf s.fwCnt.toNat) :
    sealedState (withResets n s) = withResets n (sealedState s) := by
  rw [sealedState, paddedFirmware_withResets n h]
  rfl

/-- A sealed image and its payload are written, so they are the same bytes. -/
theorem imageBytes_withResets (hfw : WrittenBelow s.fwBuf s.size.toNat) (hpl : WrittenBelow s.plBuf s.plCnt.toNat) :
    firmwareBytes (withResets n s) = firmwareBytes s ∧ payloadBytes (withResets n s) = payloadBytes s :=
  ⟨bufBytes_of_written hfw _ _, bufBytes_of_written hpl _ _⟩

/-- The text of a written image is the same. -/
theorem txtSeq_withResets (hfw : WrittenBelow s.fwBuf s.size.toNat) (hpl : WrittenBelow s.plBuf s.plCnt.toNat) (c : HexCase) :
    txtSeq c (withResets n s) = txtSeq c s := by
  obtain ⟨hf, hp⟩ := imageBytes_withResets n hfw hpl
  rw [txtSeq, hf, hp]
  rfl

/-- The map of a written image is the same. -/
theorem mapSeq_withResets (hfw : WrittenBelow s.fwBuf s.size.toNat) (hpl : WrittenBelow s.plBuf s.plCnt.toNat) :
    mapSeq (withResets n s) = mapSeq s := by
  obtain ⟨hf, hp⟩ := imageBytes_withResets n hfw hpl
  rw [mapSeq, hf, hp]
  rfl

/-! ### The commands -/

/-- The checks of a beat do not see the contents (30_encoding R95). -/
theorem sameAnswer_perform (i : Instr) {body body' : Result} (h : SameAnswer body body') :
    SameAnswer (perform i s body) (perform i (withResets n s) body') := by
  have hpres : presenceOk i (withResets n s) = presenceOk i s := by cases i <;> rfl
  have hph : (withResets n s).phase = s.phase := rfl
  unfold perform
  rw [hph, hpres]
  split
  · exact sameAnswer_next n s
  · split_ifs
    · exact h
    · exact sameAnswer_next n s
  · split_ifs
    · exact sameAnswer_next n (raise .sequence i.opcode s)
    · exact sameAnswer_next n (raise .reservedOperand i.opcode s)
    · exact h

/-- Absorbing a firmware byte does not see the contents (41_absorb R141). -/
theorem sameAnswer_absorbFw (p : Params) (b : Byte) :
    SameAnswer (absorbFw p b s) (absorbFw p b (withResets n s)) := by
  rcases absorbFw_cases p b s with ⟨hc, e⟩ | ⟨-, e⟩ | ⟨hc, e⟩ <;> rw [e]
  · rw [absorbFw, if_pos hc]
    exact sameAnswer_next n _
  · exact sameAnswer_fault _ _
  · rw [absorbFw, if_neg (Nat.ne_of_lt hc), bufStore, if_pos hc]
    exact sameAnswer_next n _

/-- Absorbing a payload byte does not see the contents (41_absorb R142). -/
theorem sameAnswer_absorbPl (p : Params) (b : Byte) :
    SameAnswer (absorbPl p b s) (absorbPl p b (withResets n s)) := by
  rcases absorbPl_cases p b s with ⟨hc, e⟩ | ⟨-, e⟩ | ⟨hc, e⟩ <;> rw [e]
  · rw [absorbPl, if_pos hc]
    exact sameAnswer_next n _
  · exact sameAnswer_fault _ _
  · rw [absorbPl, if_neg (Nat.ne_of_lt hc), bufStore, if_pos hc]
    exact sameAnswer_next n _

/-- SEAL of an absorbed firmware does not see the contents (42_seal R160). -/
theorem sameAnswer_sealImage (p : Params) (h : WrittenBelow s.fwBuf s.fwCnt.toNat) :
    SameAnswer (sealImage p s) (sealImage p (withResets n s)) := by
  rw [sealImage, sealImage, sealedState_withResets n h]
  simp only [withResets]
  split_ifs
  · exact sameAnswer_next n (raise .fwEmpty 0x20 s)
  · exact sameAnswer_next n (raise .addrRange 0x20 s)
  · exact sameAnswer_fault _ _
  · exact sameAnswer_next n (sealedState s)

/-- No command sees the contents, once the absorbed firmware is written; RESET alone counts on from another number. -/
theorem sameAnswer_exec (i : Instr) (h : WrittenBelow s.fwBuf s.fwCnt.toNat) :
    SameAnswer (exec i s) (exec i (withResets n s)) := by
  cases i with
  | nop _ | setTarget _ | setBoot _ | setFlash _ | setPladdr _ | emit _ => exact sameAnswer_perform n _ (sameAnswer_next n _)
  | fwByte data => exact sameAnswer_perform n _ (sameAnswer_absorbFw n _ _)
  | plByte data => exact sameAnswer_perform n _ (sameAnswer_absorbPl n _ _)
  | sealFw data => exact sameAnswer_perform n _ (sameAnswer_sealImage n _ h)
  | reset data => exact sameAnswer_perform n _ (sameAnswer_next (n + 1) _)

/-- No beat sees the contents. -/
theorem sameAnswer_executeBeat (w : Beat) (h : WrittenBelow s.fwBuf s.fwCnt.toNat) :
    SameAnswer (executeBeat w s) (executeBeat w (withResets n s)) := by
  unfold executeBeat
  cases decode w with
  | ok i => exact sameAnswer_exec n i h
  | error e =>
    obtain ⟨opc⟩ := e
    simp only [reservedBeat]
    split
    · exact sameAnswer_next n s
    · exact sameAnswer_next n s
    · exact sameAnswer_next n (raise .illegalOpcode opc s)

/-! ### The turns -/

/-- An ENGINE turn does not see the contents. -/
theorem sameAnswer_engineTurn (h : WrittenBelow s.fwBuf s.fwCnt.toNat) :
    SameAnswer (engineTurn s) (engineTurn (withResets n s)) := by
  rcases engineTurn_cases s with ⟨hp | hc, e⟩ | ⟨hp, w, rest, hc, e⟩ <;> rw [e]
  · rw [engineTurn_of_emitting (s := withResets n s) hp]
    exact sameAnswer_next n s
  · rw [engineTurn_of_no_beat (s := withResets n s) hc]
    exact sameAnswer_next n s
  · rw [engineTurn_of_beat (s := withResets n s) hp hc]
    exact sameAnswer_executeBeat n w h

/-- The image both emitters send is written (10_state R42). -/
theorem written_of_emitting {p : Params} (hi : Inv p s) (hp : s.phase = .emitting) :
    WrittenBelow s.fwBuf s.size.toNat ∧ WrittenBelow s.plBuf s.plCnt.toNat := by
  obtain ⟨⟨-, -, -, -, -, hpl, -⟩, -, ⟨-, -, -, hfw, -⟩, -⟩ := (inv_emitting_iff hp).mp hi
  exact ⟨hfw, hpl⟩

/-- A TXT turn does not see the contents. -/
theorem sameAnswer_txtTurn {p : Params} (hi : Inv p s) : SameAnswer (txtTurn p s) (txtTurn p (withResets n s)) := by
  intro t ht
  rcases txtTurn_eq_next.mp ht with ⟨hv, rfl⟩ | ⟨hv, x, hx, rfl⟩
  · exact ⟨n, txtTurn_eq_next.mpr (.inl ⟨hv, rfl⟩)⟩
  · obtain ⟨hfw, hpl⟩ := written_of_emitting hi (txtValid_iff.mp hv).1
    refine ⟨n, txtTurn_eq_next.mpr (.inr ⟨hv, x, ?_, rfl⟩)⟩
    rw [txtOffer_eq_ok, txtSeq_withResets n hfw hpl]
    exact txtOffer_eq_ok.mp hx

/-- A MAP turn does not see the contents. -/
theorem sameAnswer_mapTurn {p : Params} (hi : Inv p s) : SameAnswer (mapTurn p s) (mapTurn p (withResets n s)) := by
  intro t ht
  rcases mapTurn_eq_next.mp ht with ⟨hv, rfl⟩ | ⟨hv, x, hx, rfl⟩
  · exact ⟨n, mapTurn_eq_next.mpr (.inl ⟨hv, rfl⟩)⟩
  · obtain ⟨hfw, hpl⟩ := written_of_emitting hi (mapValid_iff.mp hv).1
    refine ⟨n, mapTurn_eq_next.mpr (.inr ⟨hv, x, ?_, rfl⟩)⟩
    rw [mapOffer_eq_ok, mapSeq_withResets n hfw hpl]
    exact mapOffer_eq_ok.mp hx

/-- No turn from a state of the invariant sees the contents; `rst` alone counts on from another number. -/
theorem sameAnswer_takeTurn (x : Turn) (hi : Inv Config.params s) :
    SameAnswer (takeTurn x s) (takeTurn x (withResets n s)) := by
  cases x with
  | engine =>
    obtain ⟨⟨-, -, -, -, hfw, -, -⟩, -⟩ := hi
    exact sameAnswer_engineTurn n hfw
  | txt => exact sameAnswer_txtTurn n hi
  | map => exact sameAnswer_mapTurn n hi
  | read idx => exact sameAnswer_next n _
  | rst lost => exact sameAnswer_next (n + 1) _

/-- No step from a state of the invariant sees the contents: every byte it uses has been written. -/
theorem sameAnswer_step (hi : Inv Config.params s) : SameAnswer (step s) (step (withResets n s)) := by
  cases hsched : s.sched with
  | nil =>
    rw [step_of_no_turn hsched, step_of_no_turn (s := withResets n s) hsched]
    exact sameAnswer_next n s
  | cons x rest =>
    rw [step_of_sched hsched, step_of_sched (s := withResets n s) hsched]
    exact sameAnswer_takeTurn n x (inv_hostSide hi rest s.cmdIn s.rdOut)

end Contents

/-- Settles O53, by the turn the step takes. -/
theorem unspecifiedBufferBytesAreUnobservable : Obligations.UnspecifiedBufferBytesAreUnobservable :=
  fun _ t n hi hstep => sameAnswer_step n hi t hstep

end Sys2Proof.Machine
end

section
/-! PROOFS. The words of the checksum (42_seal R167, R168) and the value of a header field's bytes in either order (20_memory R64,
R65, R66). -/

namespace Sys2Proof.Machine

/-! ### The fold of the checksum -/

/-- The checksum of no word is where the fold starts (42_seal R168). -/
@[simp] theorem checksum_nil (target boot size : Word) : checksum target boot size [] = checksumSeed ^^^ target ^^^ boot ^^^ size := rfl

/-- One more word of 8 bytes goes in as their little-endian word (42_seal R168, 20_memory R68). -/
theorem checksum_append_word (target boot size : Word) {bs : List Byte} (h : bs.length % 8 = 0) (b0 b1 b2 b3 b4 b5 b6 b7 : Byte) :
    checksum target boot size (bs ++ [b0, b1, b2, b3, b4, b5, b6, b7])
      = checksum target boot size bs ^^^ le64 b0 b1 b2 b3 b4 b5 b6 b7 := by
  have hword : textWords [b0, b1, b2, b3, b4, b5, b6, b7] = [be64 b0 b1 b2 b3 b4 b5 b6 b7] := rfl
  rw [checksum, textWords_append h, hword, List.foldl_append, ← checksum, List.foldl_cons, List.foldl_nil, reverseWordBytes_be64]

/-- Settles O25, by the words of a run with one word appended. -/
theorem checksumFoldsWordsLittleEndian : Obligations.ChecksumFoldsWordsLittleEndian :=
  ⟨checksum_nil, fun target boot size _ b0 b1 b2 b3 b4 b5 b6 b7 h => checksum_append_word target boot size h b0 b1 b2 b3 b4 b5 b6 b7⟩

/-- Reversing the bytes twice gives the word back. -/
@[simp] theorem reverseWordBytes_reverseWordBytes (w : Word) : reverseWordBytes (reverseWordBytes w) = w := by
  rw [reverseWordBytes_eq_be64 w, reverseWordBytes_be64]
  exact be64_byteOf w

/-! ### The bytes of a header field -/

/-- The 8 bytes of a header field in map order, byte 0 first (20_memory R65, 43_emit R212): the text order reversed. -/
def mapFieldBytes (v : Word) : List Byte := (textFieldBytes v).reverse

@[simp] theorem mapFieldBytes_length (v : Word) : (mapFieldBytes v).length = 8 := rfl

/-- In text order, byte `i` of the field stands `i` places before the last (20_memory R64). -/
theorem textFieldBytes_getElem? (v : Word) {i : Nat} (h : i < 8) : (textFieldBytes v)[7 - i]? = some (byteOf v i) := by
  interval_cases i <;> rfl

/-- In map order, byte `i` of the field stands at place `i` (20_memory R65). -/
theorem mapFieldBytes_getElem? (v : Word) {i : Nat} (h : i < 8) : (mapFieldBytes v)[i]? = some (byteOf v i) := by
  interval_cases i <;> rfl

/-- Byte `i` of a word is its base-256 digit of weight `256 ^ i`. -/
theorem toNat_byteOf (v : Word) (i : Nat) : (byteOf v i).toNat = v.toNat / 256 ^ i % 256 := by
  rw [byteOf, BitVec.extractLsb'_toNat, Nat.shiftRight_eq_div_pow, Nat.pow_mul]

/-- The bytes in text order, read big-endian, give the field (20_memory R66). -/
theorem textFieldBytes_value (v : Word) : (textFieldBytes v).foldl (fun a b => 256 * a + b.toNat) 0 = v.toNat := by
  have hv := v.isLt
  simp only [textFieldBytes, List.map_cons, List.map_nil, List.foldl_cons, List.foldl_nil, toNat_byteOf]
  omega

/-- The bytes in map order, read little-endian, give the field (20_memory R66). -/
theorem mapFieldBytes_value (v : Word) : (mapFieldBytes v).foldr (fun b a => b.toNat + 256 * a) 0 = v.toNat := by
  rw [mapFieldBytes, List.foldr_reverse, ← textFieldBytes_value v]
  simp only [Nat.add_comm]

end Sys2Proof.Machine
end

section
/-! PROOFS. Pieces of equal length laid one after another, as the text lays header fields and byte lines and the map lays header
fields: where one piece stands. -/

namespace Sys2Proof.Machine

section Pieces

variable {α β : Type} {f : α → List β} {n : Nat}

/-- Piece `j` of pieces of length `n` starts at `n * j`. -/
theorem drop_flatMap (hf : ∀ a, (f a).length = n) {l : List α} {j : Nat} {a : α} (h : l[j]? = some a) :
    ∃ rest, (l.flatMap f).drop (n * j) = f a ++ rest := by
  induction l generalizing j with
  | nil => simp at h
  | cons x l ih =>
    cases j with
    | zero =>
      obtain rfl : x = a := by simpa using h
      exact ⟨l.flatMap f, List.flatMap_cons⟩
    | succ j =>
      obtain ⟨rest, hrest⟩ := ih (by simpa using h)
      refine ⟨rest, ?_⟩
      rw [List.flatMap_cons, Nat.mul_succ, Nat.add_comm, ← List.drop_drop, List.drop_left' (hf x), hrest]

/-- What stands inside piece `j`, whatever follows the pieces. -/
theorem slice_flatMap (hf : ∀ a, (f a).length = n) {l : List α} {j : Nat} {a : α} (h : l[j]? = some a) {i m : Nat}
    (him : i + m ≤ n) (rest : List β) : ((l.flatMap f ++ rest).drop (n * j + i)).take m = ((f a).drop i).take m := by
  have hj := (List.getElem?_eq_some_iff.mp h).1
  obtain ⟨after, hafter⟩ := drop_flatMap hf h
  have hlen : n * j ≤ (l.flatMap f).length := by
    rw [List.length_flatMap, List.map_congr_left fun b _ => hf b, List.map_const', List.sum_replicate_nat, Nat.mul_comm]
    exact Nat.mul_le_mul_right n hj.le
  rw [← List.drop_drop, List.drop_append_of_le_length hlen, hafter, List.append_assoc,
    List.drop_append_of_le_length (by rw [hf]; omega), List.take_append_of_le_length (by rw [List.length_drop, hf]; omega)]

/-- The element at place `i` of piece `j`, whatever follows the pieces. -/
theorem getElem?_flatMap_append (hf : ∀ a, (f a).length = n) {l : List α} {j : Nat} {a : α} (h : l[j]? = some a) {i : Nat}
    (hi : i < n) (rest : List β) : (l.flatMap f ++ rest)[n * j + i]? = (f a)[i]? := by
  have hone := congrArg (fun q => q[0]?) (slice_flatMap hf h (show i + 1 ≤ n from hi) rest)
  simpa using hone

end Pieces

end Sys2Proof.Machine
end

section
/-! PROOFS. The map of an image (20_memory R69, R77, R79, R81; 43_emit R210 to R214): the records of a body, the primary region as one
body, its candidates and its words. -/

namespace Sys2Proof.Machine

/-! ### The records of a body -/

/-- The addresses of a body are consecutive. -/
theorem bodyRecords_map_fst (a : Nat) (bs : List Byte) : (bodyRecords a bs).map (fun r => r.1) = List.range' a bs.length := by
  induction bs generalizing a with
  | nil => rfl
  | cons b bs ih => rw [bodyRecords, List.map_cons, ih, List.length_cons, List.range'_succ]

/-- The bytes of a body's records are its bytes. -/
theorem bodyRecords_map_snd (a : Nat) (bs : List Byte) : (bodyRecords a bs).map (fun r => r.2) = bs := by
  induction bs generalizing a with
  | nil => rfl
  | cons b bs ih => rw [bodyRecords, List.map_cons, ih]

/-- The records from record `k` on are those of the bytes from byte `k` on. -/
theorem bodyRecords_drop (a : Nat) (bs : List Byte) (k : Nat) : (bodyRecords a bs).drop k = bodyRecords (a + k) (bs.drop k) := by
  induction k generalizing a bs with
  | zero => rfl
  | succ k ih =>
    cases bs with
    | nil => rfl
    | cons b bs => rw [bodyRecords, List.drop_succ_cons, ih, List.drop_succ_cons, Nat.add_right_comm, Nat.add_assoc]

/-- The first `k` records are those of the first `k` bytes. -/
theorem bodyRecords_take (a : Nat) (bs : List Byte) (k : Nat) : (bodyRecords a bs).take k = bodyRecords a (bs.take k) := by
  induction k generalizing a bs with
  | zero => rfl
  | succ k ih =>
    cases bs with
    | nil => rfl
    | cons b bs => rw [bodyRecords, List.take_succ_cons, ih, List.take_succ_cons, bodyRecords]

/-- A record adds its byte to the candidates at its own address. -/
theorem mapCandidates_cons (a' : Nat) (b : Byte) (rs : List Host.Cell) (a : Nat) :
    mapCandidates ((a', b) :: rs) a = if a' = a then b :: mapCandidates rs a else mapCandidates rs a := by
  simp only [mapCandidates, List.filter_cons, decide_eq_true_eq]
  split_ifs <;> rfl

/-- No record of a body writes below its base or past its end. -/
theorem mapCandidates_bodyRecords_outside {base a : Nat} {bs : List Byte} (h : a < base ∨ base + bs.length ≤ a) :
    mapCandidates (bodyRecords base bs) a = [] := by
  rw [mapCandidates, List.map_eq_nil_iff, List.filter_eq_nil_iff]
  intro r hr
  have := bodyRecords_addr hr
  simp only [decide_eq_true_eq]
  omega

/-- Exactly one record of a body writes each of its addresses, with the byte at that place. -/
theorem mapCandidates_bodyRecords {base k : Nat} {bs : List Byte} {b : Byte} (h : bs[k]? = some b) :
    mapCandidates (bodyRecords base bs) (base + k) = [b] := by
  induction bs generalizing base k with
  | nil => simp at h
  | cons x bs ih =>
    rw [bodyRecords, mapCandidates_cons]
    cases k with
    | zero =>
      obtain rfl : x = b := by simpa using h
      rw [if_pos (Nat.add_zero base).symm, mapCandidates_bodyRecords_outside (.inl (by omega))]
    | succ k =>
      rw [if_neg (by omega), show base + (k + 1) = base + 1 + k by omega]
      exact ih (by simpa using h)

/-! ### The primary region -/

/-- The header fields in the order both artifacts carry them (20_memory R64, R65). -/
def headerFields (s : State) : List Word := [s.target, s.boot, s.size, s.acc]

/-- The header's bytes in map order, byte 0 of each field first (20_memory R65). -/
def headerBytes (s : State) : List Byte := (headerFields s).flatMap mapFieldBytes

/-- The bytes of the primary region in map order: the header and then the firmware (20_memory R77). -/
def primaryBytes (s : State) (firmware : List Byte) : List Byte := headerBytes s ++ firmware

@[simp] theorem headerBytes_length (s : State) : (headerBytes s).length = 32 := rfl

@[simp] theorem primaryBytes_length (s : State) (firmware : List Byte) : (primaryBytes s firmware).length = 32 + firmware.length := by
  rw [primaryBytes, List.length_append, headerBytes_length]

/-- The primary region is one body at FLASH. -/
theorem primaryRecords_eq_bodyRecords (s : State) (firmware : List Byte) :
    primaryRecords s firmware = bodyRecords s.flash.toNat (primaryBytes s firmware) := primaryRecords_eq_body s firmware

section Primary

variable {s : State} {firmware : List Byte}

/-- A field's index in the header is below 4. -/
theorem lt_of_headerFields_getElem? {j : Nat} {v : Word} (h : (headerFields s)[j]? = some v) : j < 4 :=
  (List.getElem?_eq_some_iff.mp h).1

/-- Byte `i` of field `j` is byte `8j + i` of the primary region (43_emit R212). -/
theorem primaryBytes_header {j i : Nat} {v : Word} (h : (headerFields s)[j]? = some v) (hi : i < 8) :
    (primaryBytes s firmware)[8 * j + i]? = some (byteOf v i) :=
  (getElem?_flatMap_append mapFieldBytes_length h hi firmware).trans (mapFieldBytes_getElem? v hi)

/-- Firmware byte `k` is byte `32 + k` of the primary region (43_emit R213). -/
theorem primaryBytes_firmware (k : Nat) : (primaryBytes s firmware)[32 + k]? = firmware[k]? := by
  rw [primaryBytes, List.getElem?_append_right (Nat.le_add_right 32 k), headerBytes_length, Nat.add_sub_cancel_left]

end Primary

/-- Settles O36: the primary region is one body, and a body puts one byte at each of its addresses. -/
theorem primaryRegionPlacesEachByteOnce : Obligations.PrimaryRegionPlacesEachByteOnce := by
  intro s firmware
  rw [primaryRecords_eq_bodyRecords]
  refine ⟨fun j i v hv hi => ?_, fun k b hb => ?_, fun a ha => ?_⟩
  · rw [Nat.add_assoc]
    exact mapCandidates_bodyRecords (primaryBytes_header hv hi)
  · rw [Nat.add_assoc]
    exact mapCandidates_bodyRecords ((primaryBytes_firmware k).trans hb)
  · exact mapCandidates_bodyRecords_outside (by rw [primaryBytes_length]; omega)

/-! ### The map as a whole -/

/-- The records of the payload, none when there is no payload (43_emit R211, R214). -/
def payloadRecords (s : State) : List Host.Cell := if s.plPresent then bodyRecords s.pladdr.toNat (payloadBytes s) else []

/-- MapSeq is the body of the primary region and then the payload's records. -/
theorem mapSeq_eq_bodies (s : State) :
    mapSeq s = bodyRecords s.flash.toNat (primaryBytes s (firmwareBytes s)) ++ payloadRecords s := by
  rw [← primaryRecords_eq_bodyRecords]
  rfl

/-- The number of records of the primary region of an image. -/
theorem primary_length (s : State) : (bodyRecords s.flash.toNat (primaryBytes s (firmwareBytes s))).length = 32 + s.size.toNat := by
  rw [bodyRecords_length, primaryBytes_length, firmwareBytes_length]

/-- The first `32 + SIZE` records are the primary region. -/
theorem mapSeq_take_primary (s : State) :
    (mapSeq s).take (32 + s.size.toNat) = bodyRecords s.flash.toNat (primaryBytes s (firmwareBytes s)) := by
  rw [mapSeq_eq_bodies, List.take_left' (primary_length s)]

/-- Record `k` of the primary region is its byte `k` at FLASH plus `k`. -/
theorem mapSeq_getElem?_primary {s : State} {k : Nat} {b : Byte} (h : (primaryBytes s (firmwareBytes s))[k]? = some b) :
    (mapSeq s)[k]? = some (s.flash.toNat + k, b) := by
  have hk := (List.getElem?_eq_some_iff.mp h).1
  rw [mapSeq_eq_bodies, List.getElem?_append_left (by rwa [bodyRecords_length]), bodyRecords_getElem?, h, Option.map_some]

/-- Record `k` of the payload is its byte `k` at PLADDR plus `k` (43_emit R214). -/
theorem mapSeq_getElem?_payload {s : State} (hp : s.plPresent = true) {k : Nat} (hk : k < s.plCnt.toNat) :
    (mapSeq s)[32 + s.size.toNat + k]? = some (s.pladdr.toNat + k, plByteAt s k) := by
  rw [mapSeq_eq_bodies, List.getElem?_append_right (by rw [primary_length]; omega), primary_length, Nat.add_sub_cancel_left,
    payloadRecords, if_pos hp, bodyRecords_getElem?, payloadBytes_getElem?, if_pos hk, Option.map_some]

/-- A payload's record lies in the payload's region. -/
theorem payloadRecords_addr {s : State} {r : Host.Cell} (h : r ∈ payloadRecords s) :
    s.plPresent = true ∧ r.1 < s.pladdr.toNat + s.plCnt.toNat ∧ s.plCnt ≠ 0 := by
  unfold payloadRecords at h
  split_ifs at h with hp
  · have hr := bodyRecords_addr h
    rw [payloadBytes_length] at hr
    refine ⟨hp, hr.2, fun h0 => ?_⟩
    simp [h0] at hr
    omega
  · simp at h

/-- Settles O35: `in_range` bounds the last address of each region, and every record lies in one of the two. -/
theorem mapAddressesStayInTheMap : Obligations.MapAddressesStayInTheMap := by
  rintro s ⟨-, -, hrange, -⟩ r hr
  obtain ⟨hprimary, hpayload⟩ := (inRange_iff _ _ _ _ _).mp hrange
  rw [mapSeq_eq_bodies] at hr
  rcases List.mem_append.mp hr with hr | hr
  · have haddr := bodyRecords_addr hr
    rw [primaryBytes_length, firmwareBytes_length] at haddr
    omega
  · obtain ⟨hp, haddr, hcnt⟩ := payloadRecords_addr hr
    have := hpayload hp hcnt
    omega

/-! ### The words of the primary region -/

/-- Read as little-endian words, the primary region is the header fields and then the words the checksum folds (20_memory R69). -/
theorem primaryBytes_words (s : State) (firmware : List Byte) :
    (textWords (primaryBytes s firmware)).map reverseWordBytes = headerFields s ++ (textWords firmware).map reverseWordBytes := by
  have hheader : textWords (headerBytes s) = (headerFields s).map reverseWordBytes := rfl
  rw [primaryBytes, textWords_append (by rw [headerBytes_length]), hheader, List.map_append, List.map_map]
  simp [Function.comp_def]

/-- The header fields and the folded words cancel down to the seed when ACC is their checksum (42_seal R168, 20_memory R69). -/
theorem xor_primary_words {s : State} {firmware : List Byte} (h : s.acc = checksum s.target s.boot s.size firmware) :
    (headerFields s ++ (textWords firmware).map reverseWordBytes).foldl (fun a w => a ^^^ w) 0 = checksumSeed := by
  have hseed : checksumSeed ^^^ s.target ^^^ s.boot ^^^ s.size = (0 ^^^ s.target ^^^ s.boot ^^^ s.size) ^^^ checksumSeed := by
    simp only [BitVec.ofNat_eq_ofNat, BitVec.zero_xor, BitVec.xor_comm _ checksumSeed, BitVec.xor_assoc]
  rw [checksum, hseed, fold_xor] at h
  rw [List.foldl_append, List.foldl_map]
  calc (textWords firmware).foldl (fun a w => a ^^^ reverseWordBytes w) (0 ^^^ s.target ^^^ s.boot ^^^ s.size ^^^ s.acc)
      = (textWords firmware).foldl (fun a w => a ^^^ reverseWordBytes w) (0 ^^^ s.target ^^^ s.boot ^^^ s.size) ^^^ s.acc :=
        fold_xor _ _ _
    _ = checksumSeed := by rw [h, ← BitVec.xor_assoc, BitVec.xor_self, BitVec.zero_xor]

/-- Settles O37: the primary region is one body, whose words are the header fields and the folded words, and the checksum cancels
them. -/
theorem primaryRegionXorsToAllOnes : Obligations.PrimaryRegionXorsToAllOnes := by
  rintro s ⟨-, hsize, -, -, hacc, -⟩
  have hmul : (firmwareBytes s).length % 8 = 0 := by
    rw [firmwareBytes_length, hsize]
    exact (padLength_bounds _).1
  rw [mapSeq_take_primary, bodyRecords_map_fst, bodyRecords_map_snd, primaryBytes_words, primaryBytes_length, firmwareBytes_length]
  refine ⟨rfl, ?_, rfl, xor_primary_words hacc⟩
  rw [textWords_length hmul, firmwareBytes_length]

end Sys2Proof.Machine
end

section
/-! PROOFS. Where each byte of an image stands in the text and in the map, and what a reader of either gets back (20_memory R66, R67;
43_emit R196 to R200, R217). -/

namespace Sys2Proof.Machine

/-! ### Byte lines -/

/-- A byte line is three octets. -/
@[simp] theorem byteLine_length (c : HexCase) (b : Byte) : (byteLine c b).length = 3 := rfl

/-- Byte `k` of a body is its byte line `k`, whatever follows the body. -/
theorem slice_byteLines (c : HexCase) {bs : List Byte} {k : Nat} {b : Byte} (h : bs[k]? = some b) (rest : List Byte) :
    ((byteLines c bs ++ rest).drop (3 * k)).take 3 = hex2 c b ++ [0x0A] :=
  slice_flatMap (byteLine_length c) h (i := 0) (Nat.le_refl 3) rest

/-! ### The parts of the text -/

/-- The header's lines, 8 byte lines and a blank line for each field (43_emit R198). -/
def headerLines (c : HexCase) (s : State) : List Byte := (headerFields s).flatMap (fieldLines c)

/-- What stands before the payload's byte lines: five blank lines and the directive (43_emit R200). -/
def payloadLead (c : HexCase) (s : State) : List Byte :=
  textLine [] ++ textLine [] ++ textLine [] ++ textLine [] ++ textLine [] ++ textLine (atSign :: hex8 c s.pladdr)

/-- The payload's part of the text, nothing when there is no payload (43_emit R200, R201). -/
def payloadLines (c : HexCase) (s : State) : List Byte :=
  if s.plPresent then payloadLead c s ++ byteLines c (payloadBytes s) else []

@[simp] theorem headerLines_length (c : HexCase) (s : State) : (headerLines c s).length = 100 := by
  simp [headerLines, headerFields]

@[simp] theorem payloadLead_length (c : HexCase) (s : State) : (payloadLead c s).length = 5 + (hex8 c s.pladdr).length + 2 := by
  simp [payloadLead]
  omega

/-- TxtSeq is the directive, the header, the firmware and the payload's part (43_emit R196). -/
theorem txtSeq_eq_parts (c : HexCase) (s : State) :
    txtSeq c s = textLine (atSign :: hexmin c s.flash)
      ++ (headerLines c s ++ (byteLines c (firmwareBytes s) ++ payloadLines c s)) := by
  cases h : s.plPresent with
  | false => simp [txtSeq_absent c h, imageText, headerLines, headerFields, payloadLines, h]
  | true => simp [txtSeq_present c h, imageText, headerLines, headerFields, payloadLines, payloadLead, h]

/-- What follows the first directive. -/
theorem txtSeq_drop_directive (c : HexCase) (s : State) :
    (txtSeq c s).drop ((hexmin c s.flash).length + 2)
      = headerLines c s ++ (byteLines c (firmwareBytes s) ++ payloadLines c s) := by
  rw [txtSeq_eq_parts, List.drop_left' (by simp)]

/-- What follows the header. -/
theorem txtSeq_drop_header (c : HexCase) (s : State) :
    (txtSeq c s).drop ((hexmin c s.flash).length + 2 + 100) = byteLines c (firmwareBytes s) ++ payloadLines c s := by
  rw [← List.drop_drop, txtSeq_drop_directive, List.drop_left' (headerLines_length c s)]

/-- What follows the directive of a payload. -/
theorem txtSeq_drop_payloadLead (c : HexCase) {s : State} (hp : s.plPresent = true) :
    (txtSeq c s).drop ((hexmin c s.flash).length + 2 + 100 + 3 * s.size.toNat + 5 + (hex8 c s.pladdr).length + 2)
      = byteLines c (payloadBytes s) := by
  have hat : (hexmin c s.flash).length + 2 + 100 + 3 * s.size.toNat + 5 + (hex8 c s.pladdr).length + 2
      = (hexmin c s.flash).length + 2 + 100 + (3 * s.size.toNat + (5 + (hex8 c s.pladdr).length + 2)) := by omega
  rw [hat, ← List.drop_drop, txtSeq_drop_header, ← List.drop_drop, List.drop_left' (by simp), payloadLines, if_pos hp,
    List.drop_left' (payloadLead_length c s)]

/-! ### A header field in the text -/

section HeaderField

variable {s : State} {j : Nat} {v : Word}

/-- Octets `i` to `i + m - 1` of field `j` stand that far after the start of the field's lines. -/
theorem txtSeq_slice_field (c : HexCase) (h : (headerFields s)[j]? = some v) {i m : Nat} (him : i + m ≤ 25) :
    ((txtSeq c s).drop ((hexmin c s.flash).length + 2 + 25 * j + i)).take m = ((fieldLines c v).drop i).take m := by
  rw [Nat.add_assoc, ← List.drop_drop, txtSeq_drop_directive]
  exact slice_flatMap (fieldLines_length c) h him _

/-- Byte `i` of a field is the byte line `i` lines before its last (43_emit R198). -/
theorem txtSeq_slice_fieldByte (c : HexCase) (h : (headerFields s)[j]? = some v) {i : Nat} (hi : i < 8) :
    ((txtSeq c s).drop ((hexmin c s.flash).length + 2 + 25 * j + 3 * (7 - i))).take 3 = hex2 c (byteOf v i) ++ [0x0A] := by
  rw [txtSeq_slice_field c h (by omega)]
  exact slice_byteLines c (textFieldBytes_getElem? v hi) _

/-- A blank line follows the byte lines of each field (43_emit R198). -/
theorem txtSeq_separator (c : HexCase) (h : (headerFields s)[j]? = some v) :
    (txtSeq c s)[(hexmin c s.flash).length + 2 + 25 * j + 24]? = some 0x0A := by
  rw [Nat.add_assoc, ← List.getElem?_drop, txtSeq_drop_directive]
  exact (getElem?_flatMap_append (fieldLines_length c) h (by omega) _).trans rfl

/-- The records of field `j` are the body of its bytes in map order (43_emit R212). -/
theorem mapSeq_slice_field (h : (headerFields s)[j]? = some v) :
    ((mapSeq s).drop (8 * j)).take 8 = bodyRecords (s.flash.toNat + 8 * j) (mapFieldBytes v) := by
  have hj := lt_of_headerFields_getElem? h
  have hbytes : ((primaryBytes s (firmwareBytes s)).drop (8 * j)).take 8 = mapFieldBytes v :=
    slice_flatMap mapFieldBytes_length h (i := 0) (Nat.le_refl 8) _
  rw [← hbytes, ← bodyRecords_take, ← bodyRecords_drop, mapSeq_eq_bodies,
    List.drop_append_of_le_length (by rw [primary_length]; omega),
    List.take_append_of_le_length (by rw [List.length_drop, primary_length]; omega)]

end HeaderField

/-- Settles O33: the field's bytes in text order and in map order are what the slices hold, and both give the field's value. -/
theorem headerFieldRoundTrip : Obligations.HeaderFieldRoundTrip := by
  intro c s j v h
  refine ⟨textFieldBytes v, mapFieldBytes v, rfl, rfl, ?_, mapSeq_slice_field h, textFieldBytes_value v, mapFieldBytes_value v⟩
  exact (txtSeq_slice_field c h (i := 0) (by omega)).trans rfl

/-! ### The bodies in the text -/

/-- Firmware byte `k` is byte line `k` after the header (43_emit R199). -/
theorem txtSeq_slice_firmware (c : HexCase) {s : State} {k : Nat} (hk : k < s.size.toNat) :
    ((txtSeq c s).drop ((hexmin c s.flash).length + 2 + 100 + 3 * k)).take 3 = hex2 c (fwByteAt s k) ++ [0x0A] := by
  rw [← List.drop_drop, txtSeq_drop_header]
  exact slice_byteLines c ((firmwareBytes_getElem? s k).trans (if_pos hk)) _

/-- Payload byte `k` is byte line `k` after the payload's directive (43_emit R200). -/
theorem txtSeq_slice_payload (c : HexCase) {s : State} (hp : s.plPresent = true) {k : Nat} (hk : k < s.plCnt.toNat) :
    ((txtSeq c s).drop
        ((hexmin c s.flash).length + 2 + 100 + 3 * s.size.toNat + 5 + (hex8 c s.pladdr).length + 2 + 3 * k)).take 3
      = hex2 c (plByteAt s k) ++ [0x0A] := by
  rw [← List.drop_drop, txtSeq_drop_payloadLead c hp, ← List.append_nil (byteLines c (payloadBytes s))]
  exact slice_byteLines c ((payloadBytes_getElem? s k).trans (if_pos hk)) _

/-- Settles O34, part by part: the header's bytes, its separators, the firmware and the payload. -/
theorem textAndMapCarryTheSameBytes : Obligations.TextAndMapCarryTheSameBytes := by
  intro c s
  refine ⟨fun j i v h hi => ⟨txtSeq_slice_fieldByte c h hi, ?_⟩, fun j hj => ?_, fun k hk => ⟨txtSeq_slice_firmware c hk, ?_⟩,
    fun k hp hk => ⟨txtSeq_slice_payload c hp hk, mapSeq_getElem?_payload hp hk⟩⟩
  · rw [Nat.add_assoc]
    exact mapSeq_getElem?_primary (primaryBytes_header h hi)
  · exact txtSeq_separator c (List.getElem?_eq_getElem (l := headerFields s) hj)
  · rw [Nat.add_assoc]
    exact mapSeq_getElem?_primary ((primaryBytes_firmware k).trans ((firmwareBytes_getElem? s k).trans (if_pos hk)))

end Sys2Proof.Machine
end

section
/-! PROOFS. Decoding and encoding (30_encoding R90 to R94, R99), the two checks every accepted beat passes (R92, R95, R96), and the
commands the assembler gives for a line (R97, R98). -/

namespace Sys2Proof.Machine

/-! ### Decode and encode -/

/-- A beat is its two fields, OPC above DATA (30_encoding R90). -/
theorem beatOpc_append_beatData (w : Beat) : beatOpc w ++ beatData w = w := by
  apply BitVec.eq_of_getLsbD_eq
  intro j hj
  rw [BitVec.getLsbD_append]
  by_cases h : j < 64
  · simp [h, beatData]
  · simp [h, beatOpc, show j - 64 < 8 by omega, show 64 + (j - 64) = j by omega]

/-- Decoding an encoded command gives it back. -/
theorem decode_encode (i : Instr) : decode (encode i) = .ok i := by
  obtain ⟨hopc, hdata⟩ : beatOpc (encode i) = i.opcode ∧ beatData (encode i) = i.data :=
    Sys2Proof.Laws.EncodeFields.fields_append i.opcode i.data
  rw [decode, hopc, hdata]
  cases i <;> rfl

/-- A decoded command has the DATA of its beat, whatever its opcode. -/
theorem decode_data {w : Beat} {i : Instr} (h : decode w = .ok i) : i.data = beatData w := by
  unfold decode decodeFields at h
  split at h <;> cases h <;> rfl

/-- A decoded beat encodes to itself. -/
theorem encode_of_decode {w : Beat} {i : Instr} (h : decode w = .ok i) : encode i = w := by
  rw [encode, decode_opcode h, decode_data h, beatOpc_append_beatData]

/-- Every opcode of the table of 30_encoding R93 selects a command, whatever DATA is. -/
theorem decodeFields_of_table {opc : Byte}
    (h : opc ∈ ([0x00, 0x01, 0x02, 0x03, 0x04, 0x10, 0x11, 0x20, 0x21, 0xFF] : List Byte)) (d : Word) :
    ∃ i, decodeFields opc d = .ok i := by
  simp only [List.mem_cons, List.not_mem_nil, or_false] at h
  rcases h with rfl | rfl | rfl | rfl | rfl | rfl | rfl | rfl | rfl | rfl <;> exact ⟨_, rfl⟩

/-- Settles O1: the decoder recovers both fields, the encoder joins them again, and the table's opcodes are the ones not refused. -/
theorem decodeEncodeAgree : Obligations.DecodeEncodeAgree := by
  refine ⟨decode_encode, fun w i => encode_of_decode, fun w => ⟨fun hrefused htable => ?_, decode_of_reserved⟩⟩
  obtain ⟨i, hi⟩ : ∃ i, decode w = .ok i := decodeFields_of_table htable (beatData w)
  cases hrefused.symm.trans hi

/-- Settles O2: each beat is the encoding of its command, and 0x05 is not in the table. -/
theorem writtenBeatsDecode : Obligations.WrittenBeatsDecode :=
  ⟨decode_encode (.setFlash 0x2000000), decode_encode (.fwByte 0x01), decode_encode (.sealFw 0), decode_encode (.reset 0),
    decode_encode (.nop 0x1234), decode_of_reserved (by decide)⟩

/-! ### The checks of an accepted beat -/

section Checks

variable {i : Instr} {s : State} {body : Result}

/-- In LOAD, SEALED and DONE the checks of 30_encoding R95 run in order: SEQUENCE, RESERVED_OPERAND, the command's own rule. -/
theorem perform_of_checked (h1 : s.phase ≠ .emitting) (h2 : s.phase ≠ .error) :
    perform i s body =
      if (allowedIn i s.phase && presenceOk i s) = false then .next (raise .sequence i.opcode s)
      else if operandOk (formOf i) i.data = false then .next (raise .reservedOperand i.opcode s)
      else body := by
  unfold perform
  cases hp : s.phase with
  | emitting => exact absurd hp h1
  | error => exact absurd hp h2
  | load | sealed | done => rfl

/-- A command its phase does not allow, or one whose payload is not declared, raises SEQUENCE (30_encoding R96). -/
theorem perform_sequence (h1 : s.phase ≠ .emitting) (h2 : s.phase ≠ .error)
    (h3 : allowedIn i s.phase = false ∨ presenceOk i s = false) :
    perform i s body = .next (raise .sequence i.opcode s) := by
  rw [perform_of_checked h1 h2, if_pos (Bool.and_eq_false_iff.mpr h3)]

/-- A permitted command with a nonzero must-be-zero bit raises RESERVED_OPERAND (30_encoding R92, R95). -/
theorem perform_reservedOperand (h1 : s.phase ≠ .emitting) (h2 : s.phase ≠ .error) (h3 : allowedIn i s.phase = true)
    (h4 : presenceOk i s = true) (h5 : operandOk (formOf i) i.data = false) :
    perform i s body = .next (raise .reservedOperand i.opcode s) := by
  rw [perform_of_checked h1 h2, if_neg (by simp [h3, h4]), if_pos h5]

end Checks

/-- DATA past 0xFF has a must-be-zero bit of form B8. -/
theorem operandOk_b8_of_gt {d : Word} (h : 0xFF < d.toNat) : operandOk .b8 d = false := by
  rw [operandOk_b8, decide_eq_false (Nat.not_le.mpr h)]

/-- DATA other than 0 has a must-be-zero bit of form Z. -/
theorem operandOk_z_of_ne {d : Word} (h : d ≠ 0) : operandOk .z d = false := by
  rw [operandOk_z, decide_eq_false h]

/-- Settles O4: each of the four commands passes the phase and presence checks and fails the check of its form. -/
theorem mustBeZeroBitsRaiseReservedOperand : Obligations.MustBeZeroBitsRaiseReservedOperand := by
  refine fun d s => ⟨fun hp hd => ?_, fun hp hpl hd => ?_, fun hp hd => ?_, fun hp hd => ?_⟩
  · exact perform_reservedOperand (by simp [hp]) (by simp [hp]) (by simp [hp, allowedIn]) rfl (operandOk_b8_of_gt hd)
  · exact perform_reservedOperand (by simp [hp]) (by simp [hp]) (by simp [hp, allowedIn]) hpl (operandOk_b8_of_gt hd)
  · exact perform_reservedOperand (by simp [hp]) (by simp [hp]) (by simp [hp, allowedIn]) rfl (operandOk_z_of_ne hd)
  · rcases hp with hp | hp <;>
      exact perform_reservedOperand (by simp [hp]) (by simp [hp]) (by simp [hp, allowedIn]) rfl (operandOk_z_of_ne hd)

/-- Settles O5: the seven LOAD commands are not allowed in SEALED and DONE, nor EMIT in LOAD, nor PL_BYTE with no payload. -/
theorem commandOutsideItsPhaseRaisesSequence : Obligations.CommandOutsideItsPhaseRaisesSequence := by
  refine fun d s => ⟨fun hp => ?_, fun hp => ?_, fun hp hpl => ?_⟩
  · have h1 : s.phase ≠ .emitting := by rcases hp with hp | hp <;> simp [hp]
    have h2 : s.phase ≠ .error := by rcases hp with hp | hp <;> simp [hp]
    have hload : decide (s.phase = .load) = false := by rcases hp with hp | hp <;> simp [hp]
    have outside {i : Instr} (hi : allowedIn i s.phase = decide (s.phase = .load)) (body : Result) :
        perform i s body = .next (raise .sequence i.opcode s) := perform_sequence h1 h2 (.inl (hi.trans hload))
    exact ⟨outside rfl _, outside rfl _, outside rfl _, outside rfl _, outside rfl _, outside rfl _, outside rfl _⟩
  · exact perform_sequence (by simp [hp]) (by simp [hp]) (.inl (by simp [hp, allowedIn]))
  · exact perform_sequence (by simp [hp]) (by simp [hp]) (.inr hpl)

/-- Settles O6, by what a beat with a reserved opcode can do in each phase. -/
theorem reservedOpcodeRaisesIllegalOpcode : Obligations.ReservedOpcodeRaisesIllegalOpcode := by
  intro w s hres
  have hbeat : executeBeat w s = reservedBeat (beatOpc w) s := by rw [executeBeat, decode_of_reserved hres]
  rw [hbeat]
  rcases reservedBeat_cases (beatOpc w) s with ⟨hph, e⟩ | ⟨-, hne, e⟩
  · refine ⟨fun hp => ?_, fun _ => e⟩
    rcases hp with hp | hp | hp <;> simp [hp] at hph
  · exact ⟨fun _ => e, fun hp => absurd hp hne⟩

/-! ### The assembler -/

/-- Whatever commands the assembler's answer `r` holds, all are well formed (30_encoding R97). -/
def GivesWellFormed (r : Except AsmError (List Instr)) : Prop := ∀ cs, r = .ok cs → ∀ i ∈ cs, i.wellFormed = true

theorem givesWellFormed_error (e : AsmError) : GivesWellFormed (.error e) := nofun

theorem givesWellFormed_ok {cs : List Instr} (h : ∀ i ∈ cs, i.wellFormed = true) : GivesWellFormed (.ok cs) := by
  rintro _ ⟨⟩
  exact h

/-- What follows an operand the assembler takes has to be well formed only for the operands it takes. -/
theorem givesWellFormed_bind {α : Type} {x : Except AsmError α} {f : α → Except AsmError (List Instr)}
    (h : ∀ a, x = .ok a → GivesWellFormed (f a)) : GivesWellFormed (x >>= f) := by
  cases x with
  | error e => exact givesWellFormed_error e
  | ok a => exact h a rfl

/-- A well-formed command before well-formed ones. -/
theorem givesWellFormed_cons {c : Instr} {r : Except AsmError (List Instr)} (hc : c.wellFormed = true) (hr : GivesWellFormed r) :
    GivesWellFormed (r >>= fun cs => .ok (c :: cs)) :=
  givesWellFormed_bind fun cs hcs => givesWellFormed_ok (List.forall_mem_cons.mpr ⟨hc, hr cs hcs⟩)

/-- The assembler takes a `B8` operand only up to 0xFF. -/
theorem asmByte_le {v : Nat} {b : Word} (h : asmByte v = .ok b) : b.toNat ≤ 0xFF := by
  unfold asmByte at h
  split at h <;> cases h
  rw [BitVec.toNat_ofNat]
  omega

/-- A byte list gives one command for each byte, well formed if the command is for every byte (30_encoding R98). -/
theorem byteList_wellFormed {asm : List Nat → Except AsmError (List Instr)} {command : Word → Instr}
    (hc : ∀ b, b.toNat ≤ 0xFF → (command b).wellFormed = true) (hnil : asm [] = .ok [])
    (hcons : ∀ v vs, asm (v :: vs) = asmByte v >>= fun b => asm vs >>= fun cs => .ok (command b :: cs)) (vs : List Nat) :
    GivesWellFormed (asm vs) := by
  induction vs with
  | nil =>
    rw [hnil]
    exact givesWellFormed_ok nofun
  | cons v vs ih =>
    rw [hcons]
    exact givesWellFormed_bind fun b hb => givesWellFormed_cons (hc b (asmByte_le hb)) ih

theorem asmFwBytes_wellFormed (vs : List Nat) : GivesWellFormed (asmFwBytes vs) :=
  byteList_wellFormed (command := .fwByte) (fun _ => decide_eq_true) rfl (fun _ _ => rfl) vs

theorem asmPlBytes_wellFormed (vs : List Nat) : GivesWellFormed (asmPlBytes vs) :=
  byteList_wellFormed (command := .plByte) (fun _ => decide_eq_true) rfl (fun _ _ => rfl) vs

/-- A line with no operand gives the commands of its name. -/
theorem asmNone_wellFormed {cs : List Instr} (h : ∀ i ∈ cs, i.wellFormed = true) (vs : List Nat) :
    GivesWellFormed (asmNone cs vs) := by
  cases vs with
  | nil => exact givesWellFormed_ok h
  | cons v vs => exact givesWellFormed_error _

/-- A `D64` command is well formed whatever its operand. -/
theorem asmD64_wellFormed {command : Word → Instr} (h : ∀ d, (command d).wellFormed = true) (vs : List Nat) :
    GivesWellFormed (asmD64 command vs) := by
  match vs with
  | [v] =>
    change GivesWellFormed ((asmWord v).map fun d => [command d])
    cases asmWord v with
    | error e => exact givesWellFormed_error e
    | ok d => exact givesWellFormed_ok (List.forall_mem_singleton.mpr (h d))
  | [] | _ :: _ :: _ => exact givesWellFormed_error _

/-- Every name gives well-formed commands, whatever its operands. -/
theorem asmCommands_wellFormed (name : AsmName) (vs : List Nat) : GivesWellFormed (asmCommands name vs) := by
  cases name with
  | nop | sealFw | emit | reset | build => exact asmNone_wellFormed (by decide) vs
  | setTarget | setBoot | setFlash | setPladdr => exact asmD64_wellFormed (fun _ => rfl) vs
  | fwBytes => exact asmFwBytes_wellFormed vs
  | plBytes => exact asmPlBytes_wellFormed vs
  | fwByte =>
    match vs with
    | [v] => exact asmFwBytes_wellFormed [v]
    | [] | _ :: _ :: _ => exact givesWellFormed_error _
  | plByte =>
    match vs with
    | [v] => exact asmPlBytes_wellFormed [v]
    | [] | _ :: _ :: _ => exact givesWellFormed_error _
  | header =>
    match vs with
    | [_, _, _] =>
      refine givesWellFormed_bind fun t _ => givesWellFormed_bind fun b _ => givesWellFormed_bind fun f _ => givesWellFormed_ok ?_
      simp [Instr.wellFormed]
    | [] | [_] | [_, _] | _ :: _ :: _ :: _ :: _ => exact givesWellFormed_error _
  | payload =>
    match vs with
    | _ :: bytes => exact givesWellFormed_bind fun a _ => givesWellFormed_cons (c := .setPladdr a) rfl (asmPlBytes_wellFormed bytes)
    | [] => exact givesWellFormed_error _

/-- Settles O3: a line's commands are those of its name and operands. -/
theorem assembledCommandsAreWellFormed : Obligations.AssembledCommandsAreWellFormed := by
  intro line
  change GivesWellFormed (assembleLine line)
  unfold assembleLine
  split
  · exact givesWellFormed_ok nofun
  · split
    · exact givesWellFormed_error _
    · exact givesWellFormed_bind fun vs _ => asmCommands_wellFormed _ vs
  · exact givesWellFormed_error _

end Sys2Proof.Machine
end

section
/-! PROOFS. The configuration commands in LOAD (40_config R120 to R124). -/

namespace Sys2Proof.Machine

/-- Form D64 has no must-be-zero bit: every DATA is a good operand (30_encoding R92). -/
theorem operandOk_d64 (d : Word) : operandOk .d64 d = true := decide_eq_true BitVec.and_zero

/-- In LOAD a permitted command of form D64 runs its own rule, whatever its DATA (40_config R120). -/
theorem perform_d64_of_load {i : Instr} {s : State} {body : Result} (hs : s.phase = .load) (hallowed : allowedIn i .load = true)
    (hpresent : presenceOk i s = true) (hform : formOf i = .d64) : perform i s body = body := by
  have hoperand : operandOk (formOf i) i.data = true := hform ▸ operandOk_d64 i.data
  exact perform_body (by simp [hs]) (by simp [hs]) (hs ▸ hallowed) hpresent hoperand

/-- Settles O13: the four SET commands are permitted in LOAD and have form D64, so each runs its own rule. -/
theorem setCommandsWriteTheirRegister : Obligations.SetCommandsWriteTheirRegister := by
  intro v s hs
  exact ⟨perform_d64_of_load hs rfl rfl rfl, perform_d64_of_load hs rfl rfl rfl, perform_d64_of_load hs rfl rfl rfl,
    perform_d64_of_load hs rfl rfl rfl⟩

end Sys2Proof.Machine
end

section
/-! PROOFS. The absorption commands FW_BYTE and PL_BYTE in LOAD (41_absorb R140 to R142): a byte stored while there is room, an error
at a full buffer. -/

namespace Sys2Proof.Machine

/-- In LOAD a permitted command of form B8 whose DATA is a byte runs its own rule (30_encoding R92, R95). -/
theorem perform_b8_of_load {i : Instr} {s : State} {body : Result} (hs : s.phase = .load) (hallowed : allowedIn i .load = true)
    (hpresent : presenceOk i s = true) (hform : formOf i = .b8) (hdata : i.data.toNat ≤ 0xFF) : perform i s body = body := by
  have hoperand : operandOk (formOf i) i.data = true := by rw [hform, operandOk_b8, decide_eq_true hdata]
  exact perform_body (by simp [hs]) (by simp [hs]) (hs ▸ hallowed) hpresent hoperand

/-- The byte operand is DATA cut to its low 8 bits (30_encoding R92). -/
theorem byteOperand_eq_ofNat (d : Word) : byteOperand d = BitVec.ofNat 8 d.toNat := rfl

section Absorb

variable {p : Params} {s : State}

/-- FW_BYTE's rule with room left stores the byte at FWCNT and counts it (41_absorb R141). -/
theorem absorbFw_of_lt (b : Byte) (h : s.fwCnt.toNat < p.fwCap) :
    absorbFw p b s = .next { s with fwBuf := bufWrite s.fwBuf s.fwCnt.toNat b, fwCnt := s.fwCnt + 1 } := by
  rcases absorbFw_cases p b s with ⟨hfull, -⟩ | ⟨hpast, -⟩ | ⟨-, hnext⟩
  · omega
  · omega
  · exact hnext

/-- FW_BYTE's rule at a full buffer raises FW_OVERFLOW (41_absorb R141). -/
theorem absorbFw_of_full (b : Byte) (h : s.fwCnt.toNat = p.fwCap) : absorbFw p b s = .next (raise .fwOverflow 0x10 s) := if_pos h

/-- PL_BYTE's rule with room left stores the byte at PLCNT and counts it (41_absorb R142). -/
theorem absorbPl_of_lt (b : Byte) (h : s.plCnt.toNat < p.plCap.toNat) :
    absorbPl p b s = .next { s with plBuf := bufWrite s.plBuf s.plCnt.toNat b, plCnt := s.plCnt + 1 } := by
  rcases absorbPl_cases p b s with ⟨hfull, -⟩ | ⟨hpast, -⟩ | ⟨-, hnext⟩
  · omega
  · omega
  · exact hnext

/-- PL_BYTE's rule at a full buffer raises PL_OVERFLOW (41_absorb R142). -/
theorem absorbPl_of_full (b : Byte) (h : s.plCnt.toNat = p.plCap.toNat) : absorbPl p b s = .next (raise .plOverflow 0x11 s) :=
  if_pos h

end Absorb

/-- Settles O14: the checks pass, the rule of FW_BYTE writes index FWCNT, and FW_CAP keeps the counter from wrapping. -/
theorem fwByteAppendsOneByte : Obligations.FwByteAppendsOneByte := by
  intro d s hs hd hroom
  have hcap := fwCap_bounds Config.params
  have hexec := (perform_b8_of_load (i := .fwByte d) hs rfl rfl rfl hd).trans (absorbFw_of_lt (byteOperand d) hroom)
  refine ⟨_, hexec, rfl, ?counter, ?stored, ?others⟩
  case counter => exact toNat_succ_of_lt (by omega)
  case stored => exact (bufRead_bufWrite_same _ _ _ _).trans (byteOperand_eq_ofNat d)
  case others => exact fun k hk => bufRead_bufWrite_other _ _ _ hk

/-- Settles O15: the checks pass, the rule of PL_BYTE writes index PLCNT, and PL_CAP, a 32-bit value, keeps the counter from wrapping. -/
theorem plByteAppendsOneByte : Obligations.PlByteAppendsOneByte := by
  intro p d s hs hpresent hd hroom
  have hcap := p.plCap.isLt
  have hperform := (perform_b8_of_load (i := .plByte d) hs rfl hpresent rfl hd).trans (absorbPl_of_lt (byteOperand d) hroom)
  refine ⟨_, ?own, hperform, rfl, ?counter, ?stored, ?others⟩
  case own =>
    rintro rfl
    exact hperform
  case counter => exact toNat_succ_of_lt (by omega)
  case stored => exact (bufRead_bufWrite_same _ _ _ _).trans (byteOperand_eq_ofNat d)
  case others => exact fun k hk => bufRead_bufWrite_other _ _ _ hk

/-- Settles O16: the checks pass, and each rule raises at a counter equal to its capacity. -/
theorem fullBufferRaisesOverflow : Obligations.FullBufferRaisesOverflow := by
  intro d s hs hd
  constructor
  · exact fun hfull => (perform_b8_of_load (i := .fwByte d) hs rfl rfl rfl hd).trans (absorbFw_of_full _ hfull)
  · exact fun hpresent hfull => (perform_b8_of_load (i := .plByte d) hs rfl hpresent rfl hd).trans (absorbPl_of_full _ hfull)

end Sys2Proof.Machine
end

section
/-! PROOFS. SEAL in LOAD (42_seal R160 to R168): its two errors, the image it builds, and the laws of the padding. -/

namespace Sys2Proof.Machine

/-- In LOAD, SEAL with DATA 0 runs its own rule (30_encoding R92, R95). -/
theorem exec_sealFw_zero_of_load {s : State} (hs : s.phase = .load) : exec (.sealFw 0) s = sealImage Config.params s :=
  perform_body (by simp [hs]) (by simp [hs]) (by simp [hs, allowedIn]) rfl ((operandOk_z 0).trans rfl)

section Rule

variable {p : Params} {s : State}

/-- SEAL's rule with no firmware byte raises FW_EMPTY (42_seal R161). -/
theorem sealImage_of_empty (h : s.fwCnt.toNat = 0) : sealImage p s = .next (raise .fwEmpty 0x20 s) := if_pos h

/-- SEAL's rule on firmware whose regions leave the map raises ADDR_RANGE (42_seal R164). -/
theorem sealImage_of_not_inRange (hn : s.fwCnt.toNat ≠ 0)
    (hr : inRange s.flash (padLength s.fwCnt.toNat) s.plPresent s.pladdr s.plCnt = false) :
    sealImage p s = .next (raise .addrRange 0x20 s) := by
  rw [sealImage, if_neg hn, if_pos hr]

/-- SEAL's rule on firmware in range that fits the buffer builds the image (42_seal R165 to R170). -/
theorem sealImage_of_inRange (hn : s.fwCnt.toNat ≠ 0)
    (hr : inRange s.flash (padLength s.fwCnt.toNat) s.plPresent s.pladdr s.plCnt = true) (hc : padLength s.fwCnt.toNat ≤ p.fwCap) :
    sealImage p s = .next (sealedState s) := by
  rw [sealImage, if_neg hn, if_neg (by simp [hr]), if_neg (Nat.not_lt.mpr hc)]

/-- FW_CAP is a multiple of 8, so padding never leaves the buffer (00_scope R11, 42_seal R165). -/
theorem padLength_le_fwCap {n : Nat} (h : n ≤ p.fwCap) : padLength n ≤ p.fwCap := by
  have hcap := fwCap_bounds p
  have hpad := padLength_bounds n
  omega

/-- SIZE after SEAL is the padded length, which a 64-bit register holds (42_seal R166). -/
theorem toNat_size_sealedState (hc : padLength s.fwCnt.toNat ≤ p.fwCap) : (sealedState s).size.toNat = padLength s.fwCnt.toNat := by
  have hcap := fwCap_bounds p
  rw [sealedState_size, BitVec.toNat_ofNat]
  exact Nat.mod_eq_of_lt (by omega)

/-- The firmware of the image is the padded firmware (42_seal R165). -/
theorem firmwareBytes_sealedState (hc : padLength s.fwCnt.toNat ≤ p.fwCap) : firmwareBytes (sealedState s) = paddedFirmware s := by
  rw [firmwareBytes, toNat_size_sealedState hc]
  rfl

end Rule

/-- Settles O18: the check for FW_EMPTY is the first of SEAL's rule. -/
theorem sealOfEmptyFirmwareRaises : Obligations.SealOfEmptyFirmwareRaises := by
  intro s hs h0
  exact (exec_sealFw_zero_of_load hs).trans (sealImage_of_empty (congrArg BitVec.toNat h0))

/-- Settles O19: a region past the map is what `in_range` excludes. -/
theorem sealPastTheMapRaises : Obligations.SealPastTheMapRaises := by
  intro s hs hn hpast
  refine (exec_sealFw_zero_of_load hs).trans (sealImage_of_not_inRange (BitVec.toNat_ne_iff_ne.mpr hn) ?_)
  refine Bool.eq_false_iff.mpr fun hr => ?_
  obtain ⟨hprimary, hpayload⟩ := (inRange_iff _ _ _ _ _).mp hr
  rcases hpast with h | ⟨hp, hcnt, h⟩
  · exact absurd hprimary (Nat.not_le.mpr h)
  · exact absurd (hpayload hp hcnt) (Nat.not_le.mpr h)

/-- Settles O17: the three checks of SEAL's rule pass, and the state it leaves has the padded firmware as its image. -/
theorem sealBuildsTheImage : Obligations.SealBuildsTheImage := by
  intro s hs hn hcnt hprimary hpayload
  have hcap : padLength s.fwCnt.toNat ≤ Config.params.fwCap := padLength_le_fwCap hcnt
  have hr : inRange s.flash (padLength s.fwCnt.toNat) s.plPresent s.pladdr s.plCnt = true :=
    (inRange_iff _ _ _ _ _).mpr ⟨hprimary, hpayload⟩
  have hexec := (exec_sealFw_zero_of_load hs).trans (sealImage_of_inRange (BitVec.toNat_ne_iff_ne.mpr hn) hr hcap)
  have hsize := toNat_size_sealedState hcap
  refine ⟨sealedState s, hexec, rfl, hsize, ?padding, ?others, firmwareBytes_length _, ?bytes, ?acc⟩
  case padding =>
    intro k hlo hhi
    rw [fwByteAt_sealedState, if_pos ⟨hlo, hsize ▸ hhi⟩]
  case others =>
    intro k hk
    rw [fwByteAt_sealedState, if_neg (by omega)]
  case bytes =>
    intro k hk
    rw [firmwareBytes_getElem?, if_pos hk]
  case acc => rw [sealedState_acc, firmwareBytes_sealedState hcap, sealedState_size]

/-- The only way from LOAD to SEALED is a SEAL that builds the image, within the buffer (42_seal R170). -/
theorem eq_sealedState_of_enters_sealed {i : Instr} {s t : State} (hx : ExecCase i s (.next t)) (hs : s.phase = .load)
    (ht : t.phase = .sealed) : t = sealedState s ∧ padLength s.fwCnt.toNat ≤ Config.params.fwCap := by
  cases hx with
  | sealImage _ _ _ hc => exact ⟨rfl, hc⟩
  | same | setTarget | setBoot | setFlash | setPladdr | fwByte | plByte => simp [hs] at ht
  | error | emit => simp at ht
  | reset => simp [State.reset] at ht

/-- Settles O20: the SEAL built the image, whose length and bytes are known. -/
theorem paddingLaws : Obligations.PaddingLaws := by
  intro d s t hs hexec ht
  obtain ⟨rfl, hcap⟩ := eq_sealedState_of_enters_sealed (hexec ▸ exec_cases (.sealFw d) s) hs ht
  obtain ⟨hmul, hle, hlt⟩ := padLength_bounds s.fwCnt.toNat
  rw [toNat_size_sealedState hcap, sealedState_fwCnt]
  refine ⟨hmul, rfl, fun k hk => ?absorbed, fun k hlo hhi => ?padding, hle, by omega⟩
  case absorbed => rw [fwByteAt_sealedState, if_neg (by omega)]
  case padding => rw [fwByteAt_sealedState, if_pos ⟨hlo, hhi⟩]

end Sys2Proof.Machine
end

section
/-! PROOFS. The checksum as the exclusive-or of every firmware byte shifted to its place in its word, and the laws of 42_seal R173. -/

namespace Sys2Proof.Machine

/-! ### Bytes at their places -/

/-- Firmware byte `j` at its place in its little-endian word: shifted left by `8i` for `j = 8k + i` (42_seal R168, R173). -/
def placedByte (j : Nat) (b : Byte) : Word := b.setWidth 64 <<< (8 * (j % 8))

/-- The exclusive-or of all bytes at their places, the first of them being firmware byte `j`. -/
def xorPlaced : Nat → List Byte → Word
  | _, [] => 0
  | j, b :: bs => placedByte j b ^^^ xorPlaced (j + 1) bs

@[simp] theorem placedByte_zero (j : Nat) : placedByte j 0 = 0 := by
  rw [placedByte, BitVec.ofNat_eq_ofNat, BitVec.setWidth_zero, BitVec.zero_shiftLeft]
  rfl

/-- Exclusive-or goes through the shift to a place. -/
theorem placedByte_xor (j : Nat) (x y : Byte) : placedByte j (x ^^^ y) = placedByte j x ^^^ placedByte j y := by
  rw [placedByte, BitVec.setWidth_xor, BitVec.shiftLeft_xor_distrib]
  rfl

/-- A place repeats in every word. -/
theorem placedByte_add_eight (j : Nat) (b : Byte) : placedByte (j + 8) b = placedByte j b := by
  rw [placedByte, Nat.add_mod_right]
  rfl

/-- A byte stands at its place and nowhere else. -/
theorem byteOf_placedByte (j : Nat) (b : Byte) (i : Nat) : byteOf (placedByte j b) i = if i = j % 8 then b else 0 := by
  apply BitVec.eq_of_getLsbD_eq
  intro k hk
  simp only [byteOf, placedByte, BitVec.getLsbD_extractLsb', BitVec.getLsbD_shiftLeft, BitVec.getLsbD_setWidth]
  rcases Nat.lt_trichotomy i (j % 8) with h | h | h
  · have hbelow : 8 * i + k < 8 * (j % 8) := by omega
    simp [h.ne, hbelow]
  · have hin : 8 * (j % 8) + k < 64 := by omega
    simp [h, hk, hin]
    omega
  · have habove : 8 ≤ 8 * i + k - 8 * (j % 8) := by omega
    simp [h.ne', BitVec.getLsbD_of_ge b _ habove]

/-- A byte at its place is zero only if the byte is. -/
theorem placedByte_ne_zero (j : Nat) {b : Byte} (h : b ≠ 0) : placedByte j b ≠ 0 := by
  intro h0
  have hb := byteOf_placedByte j b (j % 8)
  rw [h0, if_pos rfl] at hb
  exact h (hb.symm.trans BitVec.extractLsb'_zero)

/-- The bytes of an exclusive-or. -/
theorem byteOf_xor (v w : Word) (i : Nat) : byteOf (v ^^^ w) i = byteOf v i ^^^ byteOf w i := BitVec.extractLsb'_xor

/-- Two words with the same eight bytes are equal. -/
theorem eq_of_byteOf_eq {v w : Word} (h : ∀ i, i ≤ 7 → byteOf v i = byteOf w i) : v = w := by
  rw [← be64_byteOf v, ← be64_byteOf w]
  simp only [h, Nat.reduceLeDiff]

/-- A little-endian word is the exclusive-or of its bytes at their places (00_scope R13). -/
theorem le64_eq_xorPlaced (b0 b1 b2 b3 b4 b5 b6 b7 : Byte) :
    le64 b0 b1 b2 b3 b4 b5 b6 b7 = xorPlaced 0 [b0, b1, b2, b3, b4, b5, b6, b7] := by
  refine eq_of_byteOf_eq fun i hi => ?_
  have hbe : byteOf (le64 b0 b1 b2 b3 b4 b5 b6 b7) i = [b0, b1, b2, b3, b4, b5, b6, b7][i]'(by simp; omega) :=
    byteOf_be64 b7 b6 b5 b4 b3 b2 b1 b0 i hi
  rw [hbe]
  simp only [xorPlaced, byteOf_xor, byteOf_placedByte]
  interval_cases i <;> simp [byteOf]

/-- The bytes of two runs, one after the other. -/
theorem xorPlaced_append (j : Nat) (f g : List Byte) : xorPlaced j (f ++ g) = xorPlaced j f ^^^ xorPlaced (j + f.length) g := by
  induction f generalizing j with
  | nil => simp [xorPlaced]
  | cons b f ih => rw [List.cons_append, xorPlaced, ih, xorPlaced, BitVec.xor_assoc, List.length_cons, Nat.add_right_comm,
      Nat.add_assoc]

/-- Starting a whole word later changes no place. -/
theorem xorPlaced_add_eight (j : Nat) (f : List Byte) : xorPlaced (j + 8) f = xorPlaced j f := by
  induction f generalizing j with
  | nil => rfl
  | cons b f ih => rw [xorPlaced, placedByte_add_eight, Nat.add_right_comm, ih, xorPlaced]

/-- Zero bytes add nothing. -/
theorem xorPlaced_replicate_zero (j n : Nat) : xorPlaced j (List.replicate n 0) = 0 := by
  induction n generalizing j with
  | zero => rfl
  | succ n ih => rw [List.replicate_succ, xorPlaced, placedByte_zero, ih]; rfl

/-- Changing one byte changes the exclusive-or by the difference at that byte's place. -/
theorem xorPlaced_set {f : List Byte} {k : Nat} {x : Byte} (h : f[k]? = some x) (j : Nat) (y : Byte) :
    xorPlaced j (f.set k y) = xorPlaced j f ^^^ placedByte (j + k) (x ^^^ y) := by
  induction f generalizing j k with
  | nil => simp at h
  | cons b f ih =>
    cases k with
    | zero =>
      obtain rfl : b = x := by simpa using h
      have hcancel : placedByte j b ^^^ placedByte j b = 0 := BitVec.xor_self
      calc placedByte j y ^^^ xorPlaced (j + 1) f
          = (placedByte j b ^^^ placedByte j b) ^^^ placedByte j y ^^^ xorPlaced (j + 1) f := by
            rw [hcancel, BitVec.ofNat_eq_ofNat, BitVec.zero_xor]
        _ = placedByte j b ^^^ xorPlaced (j + 1) f ^^^ placedByte (j + 0) (b ^^^ y) := by
            rw [Nat.add_zero, placedByte_xor]
            ac_rfl
    | succ k =>
      have hk : f[k]? = some x := by simpa using h
      rw [List.set_cons_succ, xorPlaced, ih hk, xorPlaced, BitVec.xor_assoc, Nat.add_right_comm, Nat.add_assoc]

/-! ### The checksum -/

/-- A first word goes into the checksum as its little-endian value (42_seal R168). -/
theorem checksum_cons_word (target boot size : Word) (b0 b1 b2 b3 b4 b5 b6 b7 : Byte) (rest : List Byte) :
    checksum target boot size (b0 :: b1 :: b2 :: b3 :: b4 :: b5 :: b6 :: b7 :: rest)
      = checksum target boot size rest ^^^ le64 b0 b1 b2 b3 b4 b5 b6 b7 := by
  rw [checksum, textWords, List.foldl_cons, fold_xor, reverseWordBytes_be64, ← checksum]

/-- The checksum of whole words is what the fold starts from and every byte at its place (42_seal R168). -/
theorem checksum_eq_xorPlaced (target boot size : Word) {f : List Byte} (h : f.length % 8 = 0) :
    checksum target boot size f = checksum target boot size [] ^^^ xorPlaced 0 f := by
  revert h
  revert f
  apply wholeWords_induction
  · exact BitVec.xor_zero.symm
  · intro b0 b1 b2 b3 b4 b5 b6 b7 rest _ ih
    have hsplit : xorPlaced 0 ([b0, b1, b2, b3, b4, b5, b6, b7] ++ rest) = le64 b0 b1 b2 b3 b4 b5 b6 b7 ^^^ xorPlaced 0 rest := by
      rw [xorPlaced_append, ← le64_eq_xorPlaced]
      exact congrArg _ (xorPlaced_add_eight 0 rest)
    rw [checksum_cons_word, ih, BitVec.xor_assoc, BitVec.xor_comm (xorPlaced 0 rest), ← hsplit]
    rfl

/-- Changing one firmware byte changes the checksum by the difference at its place (42_seal R173). -/
theorem checksum_set (target boot size : Word) {f : List Byte} {j : Nat} {x : Byte} (h : f.length % 8 = 0) (hx : f[j]? = some x)
    (y : Byte) : checksum target boot size (f.set j y) = checksum target boot size f ^^^ placedByte j (x ^^^ y) := by
  rw [checksum_eq_xorPlaced _ _ _ (by rwa [List.length_set]), xorPlaced_set hx, checksum_eq_xorPlaced _ _ _ h, BitVec.xor_assoc,
    Nat.zero_add]

/-- Settles O26: the difference stands at the byte's place, and there it is zero only for equal bytes. -/
theorem checksumSeesEverySingleByteChange : Obligations.ChecksumSeesEverySingleByteChange := by
  intro target boot size f j x y h hx
  refine ⟨checksum_set target boot size h hx y, fun hne heq => ?_⟩
  have hzero : placedByte j (x ^^^ y) = 0 := by
    rw [checksum_set target boot size h hx y] at heq
    exact (BitVec.xor_right_inj _).mp (heq.trans BitVec.xor_zero.symm)
  exact placedByte_ne_zero j (fun h0 => hne (BitVec.xor_eq_zero_iff.mp h0)) hzero

/-- The order of the words does not matter (42_seal R169, R173). -/
theorem checksum_perm (target boot size : Word) {f g : List Byte} (h : (textWords f).Perm (textWords g)) :
    checksum target boot size f = checksum target boot size g :=
  h.foldl_eq' (fun x _ y _ a => by ac_rfl) _

/-- Two equal words cancel (42_seal R173). -/
theorem checksum_append_self (target boot size : Word) {w : List Byte} (h : w.length = 8) :
    checksum target boot size (w ++ w) = checksum target boot size [] := by
  have hcancel : xorPlaced 0 (w ++ w) = 0 := by
    rw [xorPlaced_append, h, xorPlaced_add_eight]
    exact BitVec.xor_self
  rw [checksum_eq_xorPlaced _ _ _ (by simp [h]), hcancel]
  exact BitVec.xor_zero

/-- Appended zero words add nothing (42_seal R173). -/
theorem checksum_append_zeros (target boot size : Word) {f : List Byte} (h : f.length % 8 = 0) (n : Nat) :
    checksum target boot size (f ++ List.replicate (8 * n) 0) = checksum target boot size f := by
  have hzeros : xorPlaced 0 (f ++ List.replicate (8 * n) 0) = xorPlaced 0 f := by
    rw [xorPlaced_append, xorPlaced_replicate_zero]
    exact BitVec.xor_zero
  have hwords : (f ++ List.replicate (8 * n) (0 : Byte)).length % 8 = 0 := by
    rw [List.length_append, List.length_replicate]
    omega
  rw [checksum_eq_xorPlaced _ _ _ hwords, hzeros, ← checksum_eq_xorPlaced _ _ _ h]

/-- TARGET goes into the checksum as it is (42_seal R173). -/
theorem checksum_target_xor (target boot size d : Word) (f : List Byte) :
    checksum (target ^^^ d) boot size f = checksum target boot size f ^^^ d := by
  have hstart : checksumSeed ^^^ (target ^^^ d) ^^^ boot ^^^ size = checksumSeed ^^^ target ^^^ boot ^^^ size ^^^ d := by ac_rfl
  rw [checksum, hstart, fold_xor, ← checksum]

/-- BOOT goes into the checksum as TARGET does (42_seal R173). -/
theorem checksum_boot_xor (target boot size d : Word) (f : List Byte) :
    checksum target (boot ^^^ d) size f = checksum target boot size f ^^^ d := by
  have hstart : checksumSeed ^^^ target ^^^ (boot ^^^ d) ^^^ size = checksumSeed ^^^ target ^^^ boot ^^^ size ^^^ d := by ac_rfl
  rw [checksum, hstart, fold_xor, ← checksum]

/-- Settles O27, law by law. -/
theorem checksumOrderCancellationAndTerms : Obligations.ChecksumOrderCancellationAndTerms :=
  ⟨fun target boot size _ _ h => checksum_perm target boot size h, fun target boot size _ h => checksum_append_self target boot size h,
    fun target boot size _ n h => checksum_append_zeros target boot size h n,
    fun target boot size d f => ⟨checksum_target_xor target boot size d f, checksum_boot_xor target boot size d f⟩⟩

end Sys2Proof.Machine
end

section
/-! PROOFS. The sizes and the characters of the two artifacts (43_emit R194 to R202, R215): every octet of the text is counted line by
line, and a character that is neither of the two marks nor a hex digit is counted nowhere. -/

namespace Sys2Proof.Machine

/-! ### The number of octets and of records -/

@[simp] theorem payloadLines_length (c : HexCase) (s : State) :
    (payloadLines c s).length = if s.plPresent then 5 + (hex8 c s.pladdr).length + 2 + 3 * s.plCnt.toNat else 0 := by
  unfold payloadLines
  split_ifs <;> simp

/-- The number of octets of TxtSeq (43_emit R202). -/
theorem txtSeq_length (c : HexCase) (s : State) :
    (txtSeq c s).length = (hexmin c s.flash).length + 2 + 100 + 3 * s.size.toNat
      + (if s.plPresent then 5 + (hex8 c s.pladdr).length + 2 + 3 * s.plCnt.toNat else 0) := by
  simp only [txtSeq_eq_parts, List.length_append, textLine_length, List.length_cons, headerLines_length, byteLines_length,
    firmwareBytes_length, payloadLines_length]
  omega

/-- The shortest spelling has a character (00_scope R13). -/
theorem hexmin_length_pos (c : HexCase) (v : Word) : 0 < (hexmin c v).length := by
  obtain ⟨ds, hds, hne⟩ := hexmin_digits c v
  rw [hds, List.length_map]
  exact List.length_pos_iff.mpr hne

@[simp] theorem payloadRecords_length (s : State) : (payloadRecords s).length = if s.plPresent then s.plCnt.toNat else 0 := by
  unfold payloadRecords
  split_ifs <;> simp

/-- The number of records of MapSeq (43_emit R215). -/
theorem mapSeq_length (s : State) : (mapSeq s).length = 32 + s.size.toNat + (if s.plPresent then s.plCnt.toNat else 0) := by
  rw [mapSeq_eq_bodies, List.length_append, primary_length, payloadRecords_length]

/-- Settles O30, by the two regions of the map. -/
theorem mapSize : Obligations.MapSize := by
  intro s
  have hlen := mapSeq_length s
  exact ⟨hlen, fun hsize => by omega⟩

/-! ### Counting a character -/

/-- The octets that spell hex digits: `0` to `9` and the six letters of HEX_CASE (43_emit R194). -/
def IsHexChar (c : HexCase) (o : Byte) : Prop :=
  (0x30 ≤ o.toNat ∧ o.toNat ≤ 0x39) ∨ (c = .lower ∧ 0x61 ≤ o.toNat ∧ o.toNat ≤ 0x66)
    ∨ (c = .upper ∧ 0x41 ≤ o.toNat ∧ o.toNat ≤ 0x46)

theorem isHexChar_hexDigit (c : HexCase) (d : BitVec 4) : IsHexChar c (hexDigit c d) := by
  have hd := d.isLt
  by_cases h : d.toNat < 10
  · exact .inl (by rw [hexDigit_toNat_of_lt c h]; omega)
  · cases c with
    | lower => exact .inr (.inl ⟨rfl, by rw [hexDigit_lower_toNat (by omega)]; omega⟩)
    | upper => exact .inr (.inr ⟨rfl, by rw [hexDigit_upper_toNat (by omega)]; omega⟩)

theorem not_isHexChar_lineFeed (c : HexCase) : ¬ IsHexChar c lineFeed := by simp [IsHexChar, lineFeed]

theorem not_isHexChar_atSign (c : HexCase) : ¬ IsHexChar c atSign := by simp [IsHexChar, atSign]

section Count

variable {c : HexCase} {o : Byte}

/-- A line adds its LF. -/
theorem count_textLine (o : Byte) (t : List Byte) : (textLine t).count o = t.count o + [lineFeed].count o := List.count_append

/-- No digits hold a character that is not a hex digit. -/
theorem count_digits (h : ¬ IsHexChar c o) (ds : List (BitVec 4)) : (ds.map (hexDigit c)).count o = 0 := by
  rw [List.count_eq_zero, List.mem_map]
  rintro ⟨d, -, rfl⟩
  exact h (isHexChar_hexDigit c d)

theorem count_hexmin (h : ¬ IsHexChar c o) (v : Word) : (hexmin c v).count o = 0 := by
  obtain ⟨ds, hds, -⟩ := hexmin_digits c v
  rw [hds, count_digits h]

theorem count_hex8 (h : ¬ IsHexChar c o) (v : Word) : (hex8 c v).count o = 0 := by
  rw [hex8, List.count_append, count_hexmin h, ← List.map_replicate, count_digits h]

/-- A directive holds its `@` and its LF. -/
theorem count_directive {t : List Byte} (ht : t.count o = 0) :
    (textLine (atSign :: t)).count o = [atSign].count o + [lineFeed].count o := by
  rw [count_textLine, ← List.singleton_append, List.count_append, ht, Nat.add_zero]

/-- Byte lines hold one LF for each byte (43_emit R195). -/
theorem count_byteLines (h : ¬ IsHexChar c o) (bs : List Byte) : (byteLines c bs).count o = bs.length * [lineFeed].count o := by
  induction bs with
  | nil => simp [byteLines]
  | cons b bs ih =>
    have hb : (byteLine c b).count o = [lineFeed].count o := by
      rw [byteLine, count_textLine, show hex2 c b = [b.extractLsb' 4 4, b.extractLsb' 0 4].map (hexDigit c) from rfl, count_digits h,
        Nat.zero_add]
    rw [byteLines, List.flatMap_cons, List.count_append, hb, ← byteLines, ih, List.length_cons, Nat.succ_mul, Nat.add_comm]

/-- The header holds 36 LFs, 9 for each field (43_emit R198). -/
theorem count_headerLines (h : ¬ IsHexChar c o) (s : State) : (headerLines c s).count o = 36 * [lineFeed].count o := by
  have hfield (v : Word) : (fieldLines c v).count o = 9 * [lineFeed].count o := by
    rw [fieldLines, List.count_append, count_byteLines h, count_textLine, List.count_nil, Nat.zero_add]
    exact (Nat.succ_mul 8 _).symm
  simp only [headerLines, headerFields, List.flatMap_cons, List.flatMap_nil, List.count_append, List.count_nil, hfield]
  omega

/-- A payload adds five blank lines, a directive and its byte lines (43_emit R200). -/
theorem count_payloadLines (h : ¬ IsHexChar c o) (s : State) :
    (payloadLines c s).count o
      = if s.plPresent then (6 + s.plCnt.toNat) * [lineFeed].count o + [atSign].count o else 0 := by
  unfold payloadLines
  split_ifs
  · simp only [payloadLead, List.count_append, count_textLine o [], List.count_nil, count_directive (count_hex8 h _),
      count_byteLines h, payloadBytes_length, Nat.add_mul]
    omega
  · rfl

/-- TxtSeq holds one LF for each line, one `@` for each directive, and otherwise hex digits alone (43_emit R194, R195). -/
theorem count_txtSeq (h : ¬ IsHexChar c o) (s : State) :
    (txtSeq c s).count o
      = (1 + 36 + s.size.toNat + (if s.plPresent then 6 + s.plCnt.toNat else 0)) * [lineFeed].count o
        + (if s.plPresent then 2 else 1) * [atSign].count o := by
  rw [txtSeq_eq_parts]
  simp only [List.count_append, count_directive (count_hexmin h _), count_headerLines h, count_byteLines h, count_payloadLines h,
    firmwareBytes_length]
  split_ifs <;> simp only [Nat.add_mul] <;> omega

end Count

/-- Settles O29: the octets part by part, and the lines by their LFs. -/
theorem textSize : Obligations.TextSize := by
  intro c s
  have hlen := txtSeq_length c s
  have hmin := hexmin_length_pos c s.flash
  refine ⟨hlen, ?_, fun hsize => by omega⟩
  exact (count_txtSeq (not_isHexChar_lineFeed c) s).trans (by simp [lineFeed, atSign])

/-! ### The characters and the last line -/

/-- A character that is neither `@`, nor LF, nor a hex digit stands nowhere in TxtSeq (43_emit R194). -/
theorem txtSeq_characters {c : HexCase} {s : State} {o : Byte} (ho : o ∈ txtSeq c s) :
    o = atSign ∨ o = lineFeed ∨ IsHexChar c o := by
  by_contra! hother
  obtain ⟨hat, hlf, hhex⟩ := hother
  have hzero : (txtSeq c s).count o = 0 := by
    rw [count_txtSeq hhex, List.count_singleton, List.count_singleton]
    simp [hat.symm, hlf.symm]
  exact List.count_eq_zero.mp hzero ho

/-- Text made of whole lines: nothing, or text that ends with LF (43_emit R195). -/
def WholeLines (t : List Byte) : Prop := ∀ o ∈ t.getLast?, o = lineFeed

/-- Whole lines one after another are whole lines. -/
theorem wholeLines_append {t u : List Byte} (ht : WholeLines t) (hu : WholeLines u) : WholeLines (t ++ u) := by
  intro o ho
  rw [List.getLast?_append, Option.mem_def, Option.or_eq_some_iff] at ho
  rcases ho with ho | ⟨-, ho⟩
  · exact hu o ho
  · exact ht o ho

theorem wholeLines_flatMap {α : Type} {f : α → List Byte} (hf : ∀ a, WholeLines (f a)) (l : List α) : WholeLines (l.flatMap f) := by
  induction l with
  | nil => exact nofun
  | cons a l ih => exact List.flatMap_cons ▸ wholeLines_append (hf a) ih

theorem wholeLines_textLine (t : List Byte) : WholeLines (textLine t) := by simp [WholeLines, textLine, eq_comm]

theorem wholeLines_byteLines (c : HexCase) (bs : List Byte) : WholeLines (byteLines c bs) :=
  wholeLines_flatMap (fun b => wholeLines_textLine (hex2 c b)) bs

theorem wholeLines_payloadLines (c : HexCase) (s : State) : WholeLines (payloadLines c s) := by
  unfold payloadLines
  split_ifs
  · exact wholeLines_append (wholeLines_append (wholeLines_flatMap wholeLines_textLine [[], [], [], [], []]) (wholeLines_textLine _))
      (wholeLines_byteLines c _)
  · exact nofun

/-- TxtSeq is made of whole lines (43_emit R195, R196). -/
theorem wholeLines_txtSeq (c : HexCase) (s : State) : WholeLines (txtSeq c s) := by
  have hfield (v : Word) : WholeLines (fieldLines c v) := wholeLines_append (wholeLines_byteLines c _) (wholeLines_textLine [])
  rw [txtSeq_eq_parts]
  exact wholeLines_append (wholeLines_textLine _)
    (wholeLines_append (wholeLines_flatMap hfield _) (wholeLines_append (wholeLines_byteLines c _) (wholeLines_payloadLines c s)))

/-- Settles O31: only three kinds of character are counted, and the text is whole lines. -/
theorem textCharacters : Obligations.TextCharacters := by
  intro c s
  constructor
  · intro o ho
    rcases txtSeq_characters ho with rfl | rfl | hhex
    · exact .inl rfl
    · exact .inr (.inl rfl)
    · exact .inr (.inr hhex)
  · have hne : txtSeq c s ≠ [] := List.length_pos_iff.mp (txtSeq_length_pos c s)
    have hlast := List.getLast?_eq_some_getLast hne
    rw [hlast, wholeLines_txtSeq c s _ hlast]
    rfl

/-! ### The directives -/

/-- The text starts with its directive (43_emit R197). -/
theorem txtSeq_take_directive (c : HexCase) (s : State) :
    (txtSeq c s).take ((hexmin c s.flash).length + 2) = textLine (atSign :: hexmin c s.flash) := by
  rw [txtSeq_eq_parts, List.take_left' (by simp)]

/-- What follows the firmware is the payload's part (43_emit R200). -/
theorem txtSeq_drop_firmware (c : HexCase) (s : State) :
    (txtSeq c s).drop ((hexmin c s.flash).length + 2 + 100 + 3 * s.size.toNat) = payloadLines c s := by
  rw [← List.drop_drop, txtSeq_drop_header, List.drop_left' (by simp)]

/-- Settles O32: the first line, the count of `@`, and what stands after the firmware. -/
theorem payloadDirectiveExactlyWhenPresent : Obligations.PayloadDirectiveExactlyWhenPresent := by
  intro c s
  refine ⟨txtSeq_take_directive c s, ?_, fun hp => ?_⟩
  · exact (count_txtSeq (not_isHexChar_atSign c) s).trans (by simp [lineFeed, atSign])
  · rw [txtSeq_drop_firmware, payloadLines, if_pos hp, List.take_left' (by simp; omega)]
    rfl

end Sys2Proof.Machine
end

section
/-! PROOFS. EMIT, the waits of the block, and an emission run to its end (43_emit R190 to R193; 70_reset R303, R304): the model's own
stops are out of reach of the invariant, so every turn answers, and enough turns of each channel send both artifacts. -/

namespace Sys2Proof.Machine

/-! ### EMIT and the waits -/

/-- EMIT with DATA 0 in SEALED or DONE starts both emitters (43_emit R190). -/
theorem exec_emit_zero {s : State} (hs : s.phase = .sealed ∨ s.phase = .done) : exec (.emit 0) s = .next (startEmission s) := by
  have hallowed : allowedIn (.emit 0) s.phase = true := by simpa [allowedIn] using hs
  refine perform_body ?_ ?_ hallowed rfl ((operandOk_z 0).trans rfl) <;> rcases hs with hs | hs <;> simp [hs]

/-- Settles O21: EMIT passes the checks of its phase and of its operand. -/
theorem emitStartsBothEmitters : Obligations.EmitStartsBothEmitters := fun _ hs => exec_emit_zero hs

/-- Settles O47, by the two ways a step has nothing to do. -/
theorem blockWaitsForTheHost : Obligations.BlockWaitsForTheHost := by
  refine fun s => ⟨step_of_no_turn, fun rest hsched hcmd => ?_⟩
  rw [step_of_sched hsched]
  exact engineTurn_of_no_beat hcmd

/-! ### The model's stops are out of reach -/

/-- A command from a state of the invariant answers a next state: no counter is past its capacity (20_memory R60). -/
theorem execCase_next {i : Instr} {s : State} {r : Result} (hx : ExecCase i s r) (hi : Inv Config.params s) : ∃ t, r = .next t := by
  cases hx with
  | stopIndex _ hc =>
    obtain ⟨⟨hfw, hpl, -⟩, -⟩ := hi
    have hpad := padLength_le_fwCap hfw
    omega
  | _ => exact ⟨_, rfl⟩

/-- A beat from a state of the invariant answers a next state. -/
theorem executeBeat_next {s : State} (w : Beat) (hi : Inv Config.params s) : ∃ t, executeBeat w s = .next t := by
  rcases executeBeat_cases w s with ⟨i, -, hx⟩ | ⟨opc, -, e | ⟨-, -, e⟩⟩
  · exact execCase_next hx hi
  · exact ⟨_, e⟩
  · exact ⟨_, e⟩

section Stops

variable {p : Params} {s : State}

/-- A sealed image lies within the buffers (20_memory R60). -/
theorem imageInBuffers_of_sealedImage (hb : BufferInv p s) (himg : SealedImage s) : imageInBuffers p s = true := by
  obtain ⟨hfw, hpl, -⟩ := hb
  obtain ⟨-, hsize, -⟩ := himg
  exact (imageInBuffers_iff p s).mpr ⟨hsize ▸ padLength_le_fwCap hfw, fun _ => hpl⟩

/-- A cursor whose done bit is clear stands before the end. -/
theorem lt_of_cursorAt {n : Nat} {cur : Word} (h : CursorAt n cur false) : cur.toNat < n :=
  Nat.lt_of_le_of_ne h.1 fun heq => Bool.false_ne_true (h.2.mpr heq)

/-- An active TXT channel of the invariant has an octet to offer (43_emit R191). -/
theorem txtOffer_of_inv (hi : Inv p s) (hv : txtValid s = true) : ∃ x, txtOffer p s = .ok x := by
  obtain ⟨hph, hdone⟩ := txtValid_iff.mp hv
  obtain ⟨hb, -, himg, ⟨hcur, -⟩, -⟩ := (inv_emitting_iff hph).mp hi
  rw [hdone] at hcur
  exact ⟨⟨_, _⟩, txtOffer_eq_ok.mpr
    ⟨imageInBuffers_of_sealedImage hb himg, List.getElem?_eq_getElem (lt_of_cursorAt hcur), rfl⟩⟩

/-- An active MAP channel of the invariant has a record to offer, at an address of the map space (43_emit R191, 20_memory R79). -/
theorem mapOffer_of_inv (hi : Inv p s) (hv : mapValid s = true) : ∃ x, mapOffer p s = .ok x := by
  obtain ⟨hph, hdone⟩ := mapValid_iff.mp hv
  obtain ⟨hb, -, himg, ⟨-, hcur, -⟩, -⟩ := (inv_emitting_iff hph).mp hi
  rw [hdone] at hcur
  have haddr := mapAddressesStayInTheMap s himg _ (List.getElem_mem (lt_of_cursorAt hcur))
  exact ⟨_, mapOffer_eq_ok.mpr
    ⟨imageInBuffers_of_sealedImage hb himg, _, List.getElem?_eq_getElem (lt_of_cursorAt hcur), haddr, rfl⟩⟩

/-- A TXT turn from a state of the invariant answers a next state. -/
theorem txtTurn_next (hi : Inv p s) : ∃ t, txtTurn p s = .next t := by
  cases hv : txtValid s with
  | false => exact ⟨s, txtTurn_eq_next.mpr (.inl ⟨hv, rfl⟩)⟩
  | true =>
    obtain ⟨x, hx⟩ := txtOffer_of_inv hi hv
    exact ⟨_, txtTurn_eq_next.mpr (.inr ⟨hv, x, hx, rfl⟩)⟩

/-- A MAP turn from a state of the invariant answers a next state. -/
theorem mapTurn_next (hi : Inv p s) : ∃ t, mapTurn p s = .next t := by
  cases hv : mapValid s with
  | false => exact ⟨s, mapTurn_eq_next.mpr (.inl ⟨hv, rfl⟩)⟩
  | true =>
    obtain ⟨x, hx⟩ := mapOffer_of_inv hi hv
    exact ⟨_, mapTurn_eq_next.mpr (.inr ⟨hv, x, hx, rfl⟩)⟩

end Stops

/-- Settles O52, by the turn the step takes: each answers from a state of the invariant. -/
theorem invariantStatesNeverStop : Obligations.InvariantStatesNeverStop := by
  intro s hi
  rcases step_cases s with ⟨-, e⟩ | ⟨rest, -, e⟩ | ⟨rest, -, e⟩ | ⟨rest, -, e⟩ | ⟨idx, rest, -, e⟩ | ⟨lost, rest, -, e⟩ <;> rw [e]
  · exact ⟨s, rfl⟩
  · rcases engineTurn_cases { s with sched := rest } with ⟨-, e2⟩ | ⟨-, w, ws, -, e2⟩ <;> rw [e2]
    · exact ⟨_, rfl⟩
    · exact executeBeat_next w (inv_hostSide hi rest ws s.rdOut)
  · exact txtTurn_next (inv_hostSide hi rest s.cmdIn s.rdOut)
  · exact mapTurn_next (inv_hostSide hi rest s.cmdIn s.rdOut)
  · exact ⟨_, rfl⟩
  · exact ⟨_, rfl⟩

/-! ### An emission, turn by turn -/

/-- The image is the same across two changes that each leave it. -/
theorem sameImage_trans {s t u : State} (h1 : SameImage s t) (h2 : SameImage t u) : SameImage s u := by
  unfold SameImage at *
  simp_all

/-- A cursor that has advanced `k` times, up to the end, stands before the end exactly while its done bit is clear. -/
theorem cursorAt_done_iff {length k : Nat} {cur : Word} {done : Bool} (h : CursorAt length cur done)
    (hcur : cur.toNat = min k length) : done = false ↔ k < length := by
  rw [← Bool.not_eq_true, h.2, hcur]
  omega

@[simp] theorem txtTransfers_length (q : List Byte) : (txtTransfers q).length = q.length := List.length_mapIdx

@[simp] theorem mapTransfers_length (q : List Host.Cell) : (mapTransfers q).length = q.length := List.length_mapIdx

/-- A transfer leaves the block in EMITTING or ends the emission (43_emit R192). -/
theorem active_of_transfer {ph : Phase} (h : ph = .emitting) (last : Bool) :
    (if last then .done else ph) = Phase.emitting ∨ (if last then .done else ph) = Phase.done := by
  cases last <;> simp [h]

section Emission

variable {p : Params} {s₀ s : State} {n m : Nat}

/-- During and after an emission the elements before the cursors have been sent, and a channel is active until it has finished. -/
theorem sentSoFar_of_inv (hi : Inv p s) (hph : s.phase = .emitting ∨ s.phase = .done) :
    SentSoFar p s ∧ (txtValid s = true ↔ s.txtDone = false) ∧ (mapValid s = true ↔ s.mapDone = false) := by
  rcases hph with hph | hph
  · obtain ⟨-, -, -, hsent, -⟩ := (inv_emitting_iff hph).mp hi
    exact ⟨hsent, by simp [txtValid, hph], by simp [mapValid, hph]⟩
  · obtain ⟨-, -, -, hsent, hdone⟩ := (inv_done_iff hph).mp hi
    obtain ⟨htxt, hmap⟩ := Bool.and_eq_true_iff.mp hdone
    exact ⟨hsent, by simp [txtValid, hph, htxt], by simp [mapValid, hph, hmap]⟩

/-- The state `s` after an EMIT from `s₀` and then `n` TXT turns and `m` MAP turns: each cursor has advanced once for each turn of its
channel up to the end of its sequence, and the HOST has received that many elements (43_emit R191, R192). -/
structure AfterTurns (p : Params) (s₀ : State) (n m : Nat) (s : State) : Prop where
  inv : Inv p s
  phase : s.phase = .emitting ∨ s.phase = .done
  image : SameImage s₀ s
  txtCur : s.txtCur.toNat = min n (txtSeq p.hexCase s₀).length
  mapCur : s.mapCur.toNat = min m (mapSeq s₀).length
  txtOut : s.txtOut = s₀.txtOut ++ (txtTransfers (txtSeq p.hexCase s₀)).take n
  mapOut : s.mapOut = s₀.mapOut ++ (mapTransfers (mapSeq s₀)).take m

/-- EMIT starts an emission with no turn taken (43_emit R190). -/
theorem afterTurns_startEmission (hi : Inv p s) (hph : s.phase = .sealed ∨ s.phase = .done) :
    AfterTurns p s 0 0 (startEmission s) where
  inv := inv_startEmission hi hph
  phase := .inl rfl
  image := sameImage_startEmission s
  txtCur := (Nat.zero_min _).symm
  mapCur := (Nat.zero_min _).symm
  txtOut := (List.append_nil _).symm
  mapOut := (List.append_nil _).symm

/-- What has been sent says nothing of the turns to come. -/
theorem afterTurns_sched (h : AfterTurns p s₀ n m s) (turns : List Turn) : AfterTurns p s₀ n m { s with sched := turns } :=
  { h with }

/-- The TXT channel is active until there has been a TXT turn for every octet. -/
theorem txtValid_of_afterTurns (h : AfterTurns p s₀ n m s) : txtValid s = true ↔ n < (txtSeq p.hexCase s₀).length := by
  obtain ⟨⟨hcur, -⟩, hvalid, -⟩ := sentSoFar_of_inv h.inv h.phase
  rw [txtSeq_sameImage h.image] at hcur
  exact hvalid.trans (cursorAt_done_iff hcur h.txtCur)

/-- The MAP channel is active until there has been a MAP turn for every record. -/
theorem mapValid_of_afterTurns (h : AfterTurns p s₀ n m s) : mapValid s = true ↔ m < (mapSeq s₀).length := by
  obtain ⟨⟨-, hcur, -⟩, -, hvalid⟩ := sentSoFar_of_inv h.inv h.phase
  rw [mapSeq_sameImage h.image] at hcur
  exact hvalid.trans (cursorAt_done_iff hcur h.mapCur)

/-- A TXT turn sends the next octet, or nothing once all are sent (43_emit R191). -/
theorem afterTurns_txtTurn (h : AfterTurns p s₀ n m s) :
    ∃ t, txtTurn p s = .next t ∧ t.sched = s.sched ∧ AfterTurns p s₀ (n + 1) m t := by
  have hvalid := txtValid_of_afterTurns h
  have hcur := h.txtCur
  cases hv : txtValid s with
  | false =>
    have hend : (txtSeq p.hexCase s₀).length ≤ n := by simpa [hv] using hvalid
    refine ⟨s, txtTurn_eq_next.mpr (.inl ⟨hv, rfl⟩), rfl, { h with txtCur := by omega, txtOut := ?_ }⟩
    rw [h.txtOut, List.take_of_length_le (by simpa using hend), List.take_of_length_le (by simp; omega)]
  | true =>
    obtain ⟨x, hx⟩ := txtOffer_of_inv h.inv hv
    obtain ⟨hph, hdone⟩ := txtValid_iff.mp hv
    obtain ⟨hin, hat, hlast⟩ := txtOffer_eq_ok.mp hx
    have hlt := hvalid.mp hv
    have hlen := (seq_lengths_lt hin p.hexCase).1
    rw [show s.txtCur.toNat = n by omega, txtSeq_sameImage h.image] at hat hlast
    rw [txtSeq_sameImage h.image] at hlen
    refine ⟨_, txtTurn_eq_next.mpr (.inr ⟨hv, x, hx, rfl⟩), rfl, { h with
      inv := inv_sendTxt h.inv hph hdone hx
      phase := active_of_transfer hph _
      image := sameImage_trans h.image (sameImage_sendTxt x s)
      txtCur := ?_
      txtOut := ?_ }⟩
    · rw [sendTxt_txtCur, toNat_succ_of_lt (by omega)]
      omega
    · rw [sendTxt_txtOut, h.txtOut, List.append_assoc, List.take_add_one, txtTransfers_getElem?, hat, Option.map_some, ← hlast,
        Option.toList_some]

/-- A MAP turn sends the next record, or nothing once all are sent (43_emit R191). -/
theorem afterTurns_mapTurn (h : AfterTurns p s₀ n m s) :
    ∃ t, mapTurn p s = .next t ∧ t.sched = s.sched ∧ AfterTurns p s₀ n (m + 1) t := by
  have hvalid := mapValid_of_afterTurns h
  have hcur := h.mapCur
  cases hv : mapValid s with
  | false =>
    have hend : (mapSeq s₀).length ≤ m := by simpa [hv] using hvalid
    refine ⟨s, mapTurn_eq_next.mpr (.inl ⟨hv, rfl⟩), rfl, { h with mapCur := by omega, mapOut := ?_ }⟩
    rw [h.mapOut, List.take_of_length_le (by simpa using hend), List.take_of_length_le (by simp; omega)]
  | true =>
    obtain ⟨x, hx⟩ := mapOffer_of_inv h.inv hv
    obtain ⟨hph, hdone⟩ := mapValid_iff.mp hv
    obtain ⟨hin, r, hat, -, hrec⟩ := mapOffer_eq_ok.mp hx
    have hlt := hvalid.mp hv
    have hlen := (seq_lengths_lt hin p.hexCase).2
    rw [show s.mapCur.toNat = m by omega, mapSeq_sameImage h.image] at hat hrec
    rw [mapSeq_sameImage h.image] at hlen
    refine ⟨_, mapTurn_eq_next.mpr (.inr ⟨hv, x, hx, rfl⟩), rfl, { h with
      inv := inv_sendMap h.inv hph hdone hx
      phase := active_of_transfer hph _
      image := sameImage_trans h.image (sameImage_sendMap x s)
      mapCur := ?_
      mapOut := ?_ }⟩
    · rw [sendMap_mapCur, toNat_succ_of_lt (by omega)]
      omega
    · rw [sendMap_mapOut, h.mapOut, List.append_assoc, List.take_add_one, mapTransfers_getElem?, hat, Option.map_some, ← hrec,
        Option.toList_some]

/-- With a turn of its channel for every element the emission is done, and both artifacts have been received (43_emit R192). -/
theorem afterTurns_drained (h : AfterTurns p s₀ n m s) (hn : (txtSeq p.hexCase s₀).length ≤ n) (hm : (mapSeq s₀).length ≤ m) :
    s.phase = .done ∧ s.txtOut = s₀.txtOut ++ txtTransfers (txtSeq p.hexCase s₀)
      ∧ s.mapOut = s₀.mapOut ++ mapTransfers (mapSeq s₀) := by
  refine ⟨h.phase.resolve_left fun hph => ?_, ?_, ?_⟩
  · have htxt : s.txtDone ≠ false := fun hd => by
      have := (txtValid_of_afterTurns h).mp (txtValid_iff.mpr ⟨hph, hd⟩)
      omega
    have hmap : s.mapDone ≠ false := fun hd => by
      have := (mapValid_of_afterTurns h).mp (mapValid_iff.mpr ⟨hph, hd⟩)
      omega
    obtain ⟨-, -, -, -, hboth⟩ := (inv_emitting_iff hph).mp h.inv
    simp [htxt, hmap] at hboth
  · rw [h.txtOut, List.take_of_length_le (by simpa using hn)]
  · rw [h.mapOut, List.take_of_length_le (by simpa using hm)]

end Emission

/-- Any list of TXT and MAP turns runs, and is counted channel by channel whatever the interleaving (43_emit R193). -/
theorem afterTurns_run {s₀ : State} (turns : List Turn) (hturns : ∀ x ∈ turns, x = .txt ∨ x = .map) {s : State} {n m : Nat}
    (h : AfterTurns Config.params s₀ n m s) (hsched : s.sched = turns) :
    ∃ u, Host.Core.run Sys2Proof.core turns.length s = .next u
      ∧ AfterTurns Config.params s₀ (n + turns.count .txt) (m + turns.count .map) u := by
  induction turns generalizing s n m with
  | nil => exact ⟨s, rfl, h⟩
  | cons x rest ih =>
    obtain ⟨hx, hrest⟩ := List.forall_mem_cons.mp hturns
    have hstep := step_of_sched hsched
    have h' := afterTurns_sched h rest
    rcases hx with rfl | rfl
    · obtain ⟨t, ht, htsched, hafter⟩ := afterTurns_txtTurn h'
      obtain ⟨u, hu, hdone⟩ := ih hrest hafter htsched
      refine ⟨u, (core_run_succ _ (hstep.trans ht)).trans hu, ?_⟩
      rwa [List.count_cons_self, List.count_cons_of_ne (by decide), ← Nat.add_assoc, Nat.add_right_comm]
    · obtain ⟨t, ht, htsched, hafter⟩ := afterTurns_mapTurn h'
      obtain ⟨u, hu, hdone⟩ := ih hrest hafter htsched
      refine ⟨u, (core_run_succ _ (hstep.trans ht)).trans hu, ?_⟩
      rwa [List.count_cons_self, List.count_cons_of_ne (by decide), ← Nat.add_assoc, Nat.add_right_comm]

/-- Settles O41: the turns are counted channel by channel, and enough of both drain the emission. -/
theorem emissionDrainsToBothArtifacts : Obligations.EmissionDrainsToBothArtifacts := by
  intro s t turns hi hph hexec hturns htxt hmap
  obtain rfl : startEmission s = t := Host.Outcome.next.inj ((exec_emit_zero hph).symm.trans hexec)
  obtain ⟨u, hu, hafter⟩ := afterTurns_run turns hturns (afterTurns_sched (afterTurns_startEmission hi hph) turns) rfl
  obtain ⟨hdone, htxtOut, hmapOut⟩ := afterTurns_drained hafter (by omega) (by omega)
  exact ⟨u, hu, hdone, htxtOut, hmapOut, hafter.image⟩

end Sys2Proof.Machine
end

section
/-! PROOFS. The system commands NOP and RESET, and `rst` (44_system R240, R241; 70_reset R300, R301). -/

namespace Sys2Proof.Machine

/-- Form X has no must-be-zero bit: every DATA is a good operand (30_encoding R92). -/
theorem operandOk_x (d : Word) : operandOk .x d = true := decide_eq_true BitVec.and_zero

section Accepting

variable {i : Instr} {s : State} {body : Result}

/-- In ERROR only RESET runs its own rule (60_exceptions R265). -/
theorem perform_of_error (h : s.phase = .error) : perform i s body = if isReset i then body else .next s := by
  rw [perform, h]

/-- A command of form X permitted in the phase runs its own rule, in ERROR too when it is RESET or its rule changes nothing. -/
theorem perform_x_of_accepting (hs : s.phase ≠ .emitting) (hallowed : allowedIn i s.phase = true)
    (hpresent : presenceOk i s = true) (hform : formOf i = .x) (herror : isReset i = true ∨ body = .next s) :
    perform i s body = body := by
  by_cases he : s.phase = .error
  · rw [perform_of_error he]
    rcases herror with hreset | rfl
    · exact if_pos hreset
    · exact ite_self _
  · exact perform_body hs he hallowed hpresent (hform ▸ operandOk_x i.data)

end Accepting

/-- RESET outside EMITTING is the reset of the block, whatever its DATA (44_system R241). -/
theorem exec_reset_of_accepting {s : State} (d : Word) (hs : s.phase ≠ .emitting) :
    exec (.reset d) s = .next (resetBlock s) :=
  perform_x_of_accepting hs (decide_eq_true hs) rfl rfl (.inl rfl)

/-- Settles O12: NOP passes every check outside ERROR, and its own rule is what ERROR does with a discarded beat. -/
theorem nopChangesNothing : Obligations.NopChangesNothing := by
  intro d s hs
  exact perform_x_of_accepting hs (decide_eq_true hs) rfl rfl (.inr rfl)

/-- Settles O22: RESET and an `rst` turn both leave `resetBlock`, whose block is that of the reset state. -/
theorem resetAndRstRestoreTheResetState : Obligations.ResetAndRstRestoreTheResetState := by
  constructor
  · intro d s hs
    exact ⟨_, exec_reset_of_accepting d hs, afterReset_resetBlock s, rfl, rfl, rfl, rfl, rfl⟩
  · intro s lost rest hsched
    exact ⟨_, step_of_sched hsched, afterReset_rst s rest _, rfl, rfl, rfl, rfl, rfl⟩

end Sys2Proof.Machine
end

section
/-! PROOFS. The errors (60_exceptions R260 to R265): their codes, what raising one records, the only way into phase ERROR, and what
ERROR does with a beat. -/

namespace Sys2Proof.Machine

/-! ### Into ERROR and within it -/

/-- A command ends in ERROR only by staying there with no effect, or by one error with its own opcode. -/
theorem execCase_to_error {i : Instr} {s t : State} (hx : ExecCase i s (.next t)) (ht : t.phase = .error) :
    (s.phase = .error ∧ t = s) ∨ (s.phase ≠ .error ∧ ∃ e, t = raise e i.opcode s) := by
  cases hx with
  | same => exact .inl ⟨ht, rfl⟩
  | error e _ hne => exact .inr ⟨hne, e, rfl⟩
  | setTarget _ h | setBoot _ h | setFlash _ h | setPladdr _ h | fwByte _ h _ | plByte _ h _ _ => cases h.symm.trans ht
  | sealImage _ _ _ _ | emit _ | reset _ => cases ht

/-- A transfer does not end in ERROR: it stays in EMITTING or ends the emission. -/
theorem transfer_phase_ne_error {a : Phase} (h : a = .emitting) (last : Bool) : (if last then .done else a) ≠ Phase.error := by
  cases last <;> simp [h]

/-- A step ends in ERROR only by staying there with the recorded error as it was, or by one error for the beat it takes. -/
theorem step_to_error {s t : State} (hstep : step s = .next t) (ht : t.phase = .error) :
    (s.phase = .error ∧ t.errCode = s.errCode ∧ t.errOpc = s.errOpc) ∨
    (s.phase ≠ .error ∧ ∃ (e : ErrCause) (w : Beat) (ws : List Beat) (rest : List Turn),
      s.sched = .engine :: rest ∧ s.cmdIn = w :: ws ∧ t = raise e (beatOpc w) { s with sched := rest, cmdIn := ws }) := by
  cases step_stepCase hstep with
  | idle _ | pass _ _ _ | discard _ _ _ _ _ | read _ _ _ => exact .inl ⟨ht, rfl, rfl⟩
  | beat w ws rest i _ hsched hw _ hd hx =>
    rcases execCase_to_error hx ht with ⟨hs, rfl⟩ | ⟨hs, e, rfl⟩
    · exact .inl ⟨hs, rfl, rfl⟩
    · exact .inr ⟨hs, e, w, ws, rest, hsched, hw, by rw [decode_opcode hd]⟩
  | illegal w ws rest hsched hw _ hs => exact .inr ⟨hs, .illegalOpcode, w, ws, rest, hsched, hw, rfl⟩
  | txt x rest _ hp _ _ => exact absurd ht (transfer_phase_ne_error hp _)
  | map x rest _ hp _ _ => exact absurd ht (transfer_phase_ne_error hp _)
  | rst lost rest _ => cases ht

/-- Settles O11: of the two ways a step ends in ERROR, only the error for the beat it takes starts outside it. -/
theorem errorsArePrecise : Obligations.ErrorsArePrecise := by
  intro s t hs hstep ht
  rcases step_to_error hstep ht with ⟨he, -⟩ | ⟨-, hraise⟩
  · exact absurd he hs
  · exact hraise

/-! ### A beat in ERROR -/

/-- In ERROR every command but RESET is discarded (60_exceptions R265). -/
theorem exec_of_error {i : Instr} {s : State} (hs : s.phase = .error) (hi : isReset i = false) : exec i s = .next s := by
  have discarded (body : Result) : perform i s body = .next s := by simp [perform_of_error hs, hi]
  cases i with
  | reset _ => cases hi
  | nop _ | setTarget _ | setBoot _ | setFlash _ | setPladdr _ | fwByte _ | plByte _ | sealFw _ | emit _ => exact discarded _

/-- RESET is the command of opcode 0xFF (30_encoding R93). -/
theorem isReset_of_opcode_ne {i : Instr} (h : i.opcode ≠ 0xFF) : isReset i = false := by
  cases i with
  | reset _ => exact absurd rfl h
  | nop _ | setTarget _ | setBoot _ | setFlash _ | setPladdr _ | fwByte _ | plByte _ | sealFw _ | emit _ => rfl

/-- In ERROR every beat but RESET is discarded, one with a reserved opcode too (60_exceptions R265). -/
theorem executeBeat_of_error {w : Beat} {s : State} (hs : s.phase = .error) (hw : beatOpc w ≠ 0xFF) : executeBeat w s = .next s := by
  rcases executeBeat_cases w s with ⟨i, hd, -⟩ | ⟨opc, -, e | ⟨-, hne, -⟩⟩
  · have hi : isReset i = false := isReset_of_opcode_ne (decode_opcode hd ▸ hw)
    rw [executeBeat, hd]
    exact exec_of_error hs hi
  · exact e
  · exact absurd hs hne

/-- Settles O7: a discarded beat is no effect, both channels need EMITTING, and a step that stays in ERROR keeps the record. -/
theorem errorPhaseDiscardsEveryBeatButReset : Obligations.ErrorPhaseDiscardsEveryBeatButReset := by
  intro s hs
  refine ⟨fun w hw => executeBeat_of_error hs hw, by simp [txtValid, hs], by simp [mapValid, hs], fun t hstep ht => ?_⟩
  rcases step_to_error hstep ht with ⟨-, hkept⟩ | ⟨hne, -⟩
  · exact hkept
  · exact absurd hs hne

/-! ### Raising an error -/

/-- Settles O9: the record depends on whether an error is recorded already, and only the phase changes besides. -/
theorem raiseRecordsTheFirstErrorOnly : Obligations.RaiseRecordsTheFirstErrorOnly := by
  intro e opc s
  refine ⟨fun hnone => ?_, fun hsome => ?_, raise_phase e opc s, rfl, rfl, sameImage_raise e opc s,
    rfl, rfl, rfl, rfl, rfl, rfl, rfl, rfl, rfl⟩
  · rw [raise_errCode, raise_errOpc, if_pos hnone, if_pos hnone]
    exact ⟨rfl, rfl⟩
  · rw [raise_errCode, raise_errOpc, if_neg hsome, if_neg hsome]
    exact ⟨rfl, rfl⟩

/-- Settles O10, by the table of 60_exceptions R261. -/
theorem errorCodesOfTheTable : Obligations.ErrorCodesOfTheTable :=
  ⟨rfl, rfl, rfl, rfl, rfl, rfl, rfl⟩

end Sys2Proof.Machine
end
